-- ==== Sys2Proof/Word.lean ====
section
/-! DEFINITION. The word types (00_scope.md R4) and the register identifiers (10_state.md R10, R11). -/

namespace Sys2Proof

/-- A 64-bit word: every register, address, immediate and ALU value (R4). -/
abbrev Word := BitVec 64

/-- One byte of Storage (R30). -/
abbrev Byte := BitVec 8

/-- A 4-bit field of an instruction: a class code, a function code or a register field (R51, R52). -/
abbrev Nibble := BitVec 4

/-- The sixteen register identifiers, in the order of R11's table: id 0 is `rax`, id 4 is `rsp`
(R13), id 15 is the sentinel `rnone`, "no register" (R12). -/
inductive Reg where
  | rax | rcx | rdx | rbx | rsp | rbp | rsi | rdi
  | r8 | r9 | r10 | r11 | r12 | r13 | r14
  | rnone
  deriving DecidableEq, Repr

end Sys2Proof
end

