-- ==== Sys2Proof/Config.lean ====
section
/-! DEFINITION. The parameters the spec leaves open (00_scope.md R5, R6, R7), fixed for one machine. -/

namespace Sys2Proof

/-- The implementation parameters. The two proof fields are R5's constraint
8 <= MEM_SIZE <= 2^63, so that no illegal size can be written. -/
structure Config where
  /-- MEM_SIZE, the capacity of Storage in bytes (R5). -/
  memSize : Nat
  /-- RESET_PC, the program counter after reset (R6). -/
  resetPc : Word
  /-- IGNORE_UNUSED_IFUN: whether classes without a function code ignore theirs (R7). -/
  ignoreUnusedIfun : Bool
  memSize_ge : 8 ≤ memSize
  memSize_le : memSize ≤ 2 ^ 63
  deriving DecidableEq, Repr

/-- The spec's defaults: 8192 bytes, start at 0, unused function codes ignored (R5, R6, R7).
DESIGN CHOICE (the spec's own, D12, D10, D7): log entries 1, 2, 3. -/
def Config.default : Config where
  memSize := 8192
  resetPc := 0
  ignoreUnusedIfun := true
  memSize_ge := by decide
  memSize_le := by decide

end Sys2Proof
end

