-- ==== Sys2Proof/Syntax.lean ====
section
/-! DEFINITION. The instructions: one constructor per row of spec/opcode_table.json (30_encoding.md R54).
A constructor carries every field of its encoding, the ignored ones too (R58, R62), in the order of the
bytes: function code (only where it selects nothing), rA, rB, constant word. -/

namespace Sys2Proof

/-- The 27 instructions of R54. An `ifun` argument is a function code that selects nothing (R58). -/
inductive Instr where
  /-- halt, R100; any function code halts. -/
  | halt (ifun : Nibble)
  /-- nop, R101. -/
  | nop (ifun : Nibble)
  /-- rrmovq rA, rB, R110. -/
  | rrmovq (rA rB : Reg)
  /-- cmovle rA, rB, R111. -/
  | cmovle (rA rB : Reg)
  /-- cmovl rA, rB, R112. -/
  | cmovl (rA rB : Reg)
  /-- cmove rA, rB, R113. -/
  | cmove (rA rB : Reg)
  /-- cmovne rA, rB, R114. -/
  | cmovne (rA rB : Reg)
  /-- cmovge rA, rB, R115. -/
  | cmovge (rA rB : Reg)
  /-- cmovg rA, rB, R116. -/
  | cmovg (rA rB : Reg)
  /-- irmovq $valC, rB, R118; rA is an ignored field. -/
  | irmovq (ifun : Nibble) (rA rB : Reg) (valC : Word)
  /-- rmmovq rA, valC(rB), R130. -/
  | rmmovq (ifun : Nibble) (rA rB : Reg) (valC : Word)
  /-- mrmovq valC(rB), rA, R131. -/
  | mrmovq (ifun : Nibble) (rA rB : Reg) (valC : Word)
  /-- addq rA, rB, R140. -/
  | addq (rA rB : Reg)
  /-- subq rA, rB, R141. -/
  | subq (rA rB : Reg)
  /-- andq rA, rB, R142. -/
  | andq (rA rB : Reg)
  /-- xorq rA, rB, R143. -/
  | xorq (rA rB : Reg)
  /-- jmp valC, R150. -/
  | jmp (valC : Word)
  /-- jle valC, R151. -/
  | jle (valC : Word)
  /-- jl valC, R152. -/
  | jl (valC : Word)
  /-- je valC, R153. -/
  | je (valC : Word)
  /-- jne valC, R154. -/
  | jne (valC : Word)
  /-- jge valC, R155. -/
  | jge (valC : Word)
  /-- jg valC, R156. -/
  | jg (valC : Word)
  /-- call valC, R172. -/
  | call (ifun : Nibble) (valC : Word)
  /-- ret, R173. -/
  | ret (ifun : Nibble)
  /-- pushq rA, R170; rB is an ignored field. -/
  | pushq (ifun : Nibble) (rA rB : Reg)
  /-- popq rA, R171; rB is an ignored field. -/
  | popq (ifun : Nibble) (rA rB : Reg)
  deriving DecidableEq, Repr

end Sys2Proof
end

