-- ==== Sys2Proof/WellFormed.lean ====
section
/-! DEFINITION. Which instruction terms stand for an instruction of a given machine: a function code
that selects nothing must be 0 when IGNORE_UNUSED_IFUN is false (00_scope.md R7, 30_encoding.md R58,
40_step_datapath.md R78). Nothing else can be ill-formed: every register field may hold any of the
16 ids (R59), and a constant word any 64-bit value (R53). -/

namespace Sys2Proof

/-- May a class that uses no function code carry this one (R78)? -/
def ifunAllowed (cfg : Config) (ifun : Nibble) : Bool :=
  cfg.ignoreUnusedIfun || ifun == 0

/-- The instruction is one of this machine's. The halt class ignores its function code under both
settings (R7). -/
def Instr.wf (cfg : Config) : Instr → Bool
  | .halt _ => true
  | .nop ifun => ifunAllowed cfg ifun
  | .rrmovq _ _ => true
  | .cmovle _ _ => true
  | .cmovl _ _ => true
  | .cmove _ _ => true
  | .cmovne _ _ => true
  | .cmovge _ _ => true
  | .cmovg _ _ => true
  | .irmovq ifun _ _ _ => ifunAllowed cfg ifun
  | .rmmovq ifun _ _ _ => ifunAllowed cfg ifun
  | .mrmovq ifun _ _ _ => ifunAllowed cfg ifun
  | .addq _ _ => true
  | .subq _ _ => true
  | .andq _ _ => true
  | .xorq _ _ => true
  | .jmp _ => true
  | .jle _ => true
  | .jl _ => true
  | .je _ => true
  | .jne _ => true
  | .jge _ => true
  | .jg _ => true
  | .call ifun _ => ifunAllowed cfg ifun
  | .ret ifun => ifunAllowed cfg ifun
  | .pushq ifun _ _ => ifunAllowed cfg ifun
  | .popq ifun _ _ => ifunAllowed cfg ifun

end Sys2Proof
end

