-- ==== Sys2Proof/Decode.lean ====
section
/-! DEFINITION. Decoding the bytes of an instruction (30_encoding.md; fetch, 40_step_datapath.md R72 to
R78), total on any bytes and rejecting by name, and the encoder. Class codes, nibble order, ALU codes and
the lengths of call and ret are the spec's decisions D1 to D3 and D5 (log entries 4, 6). -/

namespace Sys2Proof

/-! ## Bytes, nibbles and little-endian words -/

/-- Bits [7:4] of a byte: icode of the opcode byte (R51), rA of the register byte (R52). -/
def highNibble (b : Byte) : Nibble := b.extractLsb' 4 4

/-- Bits [3:0] of a byte: ifun of the opcode byte (R51), rB of the register byte (R52). -/
def lowNibble (b : Byte) : Nibble := b.extractLsb' 0 4

/-- The byte `hi:lo`. -/
def nibbles (hi lo : Nibble) : Byte := hi ++ lo

/-- Byte k of a word, bits [8k+7 : 8k] (20_memory.md R33). -/
def wordByte (w : Word) (k : Nat) : Byte := w.extractLsb' (8 * k) 8

/-- The eight bytes of a word in memory order, least significant first (R33). -/
def leBytes (w : Word) : List Byte :=
  [wordByte w 0, wordByte w 1, wordByte w 2, wordByte w 3,
   wordByte w 4, wordByte w 5, wordByte w 6, wordByte w 7]

/-- The word whose bytes in memory order are b0 to b7 (R33). -/
def leWord (b0 b1 b2 b3 b4 b5 b6 b7 : Byte) : Word :=
  b7 ++ (b6 ++ (b5 ++ (b4 ++ (b3 ++ (b2 ++ (b1 ++ b0))))))

/-! ## Register fields -/

/-- The register a 4-bit field names (10_state.md R11; every value is legal, 30_encoding.md R59). -/
def Reg.ofNibble (n : Nibble) : Reg :=
  match n.toNat with
  | 0 => .rax
  | 1 => .rcx
  | 2 => .rdx
  | 3 => .rbx
  | 4 => .rsp
  | 5 => .rbp
  | 6 => .rsi
  | 7 => .rdi
  | 8 => .r8
  | 9 => .r9
  | 10 => .r10
  | 11 => .r11
  | 12 => .r12
  | 13 => .r13
  | 14 => .r14
  | _ => .rnone

/-- The 4-bit field that names a register (R11). -/
def Reg.toNibble : Reg → Nibble
  | .rax => 0
  | .rcx => 1
  | .rdx => 2
  | .rbx => 3
  | .rsp => 4
  | .rbp => 5
  | .rsi => 6
  | .rdi => 7
  | .r8 => 8
  | .r9 => 9
  | .r10 => 10
  | .r11 => 11
  | .r12 => 12
  | .r13 => 13
  | .r14 => 14
  | .rnone => 15

/-! ## Instruction classes -/

/-- The twelve instruction classes of R54, by the spec's names for them. -/
inductive InstrClass where
  | halt | nop | move | irmovq | rmmovq | mrmovq | opq | jump | call | ret | pushq | popq
  deriving DecidableEq, Repr

/-- The class code, icode (R54). -/
def InstrClass.icode : InstrClass → Nibble
  | .halt => 0x0
  | .nop => 0x1
  | .move => 0x2
  | .irmovq => 0x3
  | .rmmovq => 0x4
  | .mrmovq => 0x5
  | .opq => 0x6
  | .jump => 0x7
  | .call => 0x8
  | .ret => 0x9
  | .pushq => 0xA
  | .popq => 0xB

/-- The class an icode selects; 0xC to 0xF select none (R54, R60). -/
def InstrClass.ofIcode (icode : Nibble) : Option InstrClass :=
  match icode.toNat with
  | 0x0 => some .halt
  | 0x1 => some .nop
  | 0x2 => some .move
  | 0x3 => some .irmovq
  | 0x4 => some .rmmovq
  | 0x5 => some .mrmovq
  | 0x6 => some .opq
  | 0x7 => some .jump
  | 0x8 => some .call
  | 0x9 => some .ret
  | 0xA => some .pushq
  | 0xB => some .popq
  | _ => none

/-- Does the class carry a register-specifier byte (R55, R75)? -/
def InstrClass.hasRegs : InstrClass → Bool
  | .move | .irmovq | .rmmovq | .mrmovq | .opq | .pushq | .popq => true
  | .halt | .nop | .jump | .call | .ret => false

/-- Does the class carry an 8-byte constant word (R55, R76)? -/
def InstrClass.hasConst : InstrClass → Bool
  | .irmovq | .rmmovq | .mrmovq | .jump | .call => true
  | .halt | .nop | .move | .opq | .ret | .pushq | .popq => false

/-- The classes whose unused function code R78 checks: all that use none, but halt. -/
def InstrClass.checksUnusedIfun : InstrClass → Bool
  | .nop | .irmovq | .rmmovq | .mrmovq | .call | .ret | .pushq | .popq => true
  | .halt | .move | .opq | .jump => false

/-- The length of an instruction of the class in bytes (R55). -/
def InstrClass.length : InstrClass → Nat
  | .halt | .nop | .ret => 1
  | .move | .opq | .pushq | .popq => 2
  | .jump | .call => 9
  | .irmovq | .rmmovq | .mrmovq => 10

/-! ## Decoding -/

/-- Why bytes decode to no instruction. `truncated` is a fetch that runs out of bytes; the others are
the invalid encodings of 60_exceptions.md R182. -/
inductive DecodeError where
  /-- A byte of the instruction is missing (R72, R75, R76). -/
  | truncated
  /-- icode 0xC to 0xF (R60, R74). -/
  | noSuchClass (icode : Nibble)
  /-- IGNORE_UNUSED_IFUN is false and an unused function code is not 0 (R78). -/
  | unusedIfunSet (ifun : Nibble)
  /-- A register-move or branch with function code 7 to 15 (R61, R85). -/
  | noSuchCondition (ifun : Nibble)
  /-- An arithmetic/logic instruction with function code 4 to 15 (R61, R82). -/
  | noSuchAluOp (ifun : Nibble)
  deriving DecidableEq, Repr

/-- The fetch of the register-specifier byte (R75): the two identifiers and the bytes after it; both
are the sentinel, and no byte is taken, in a class without one. -/
def takeRegs (c : InstrClass) (bs : List Byte) : Option (Reg × Reg × List Byte) :=
  match c.hasRegs, bs with
  | true, [] => none
  | true, b :: rest => some (Reg.ofNibble (highNibble b), Reg.ofNibble (lowNibble b), rest)
  | false, rest => some (.rnone, .rnone, rest)

/-- The eight bytes of a little-endian word and the bytes after it (R53). -/
def takeWord : List Byte → Option (Word × List Byte)
  | b0 :: b1 :: b2 :: b3 :: b4 :: b5 :: b6 :: b7 :: rest =>
    some (leWord b0 b1 b2 b3 b4 b5 b6 b7, rest)
  | _ => none

/-- The fetch of the constant word (R76): valC and the bytes after it; valC is 0 (D23, log entry 13),
and no byte is taken, in a class without one. -/
def takeConst (c : InstrClass) (bs : List Byte) : Option (Word × List Byte) :=
  match c.hasConst with
  | true => takeWord bs
  | false => some (0, bs)

/-- The register-move or conditional move a function code selects (R56). -/
def moveOf (ifun : Nibble) (rA rB : Reg) : Except DecodeError Instr :=
  match ifun.toNat with
  | 0 => .ok (.rrmovq rA rB)
  | 1 => .ok (.cmovle rA rB)
  | 2 => .ok (.cmovl rA rB)
  | 3 => .ok (.cmove rA rB)
  | 4 => .ok (.cmovne rA rB)
  | 5 => .ok (.cmovge rA rB)
  | 6 => .ok (.cmovg rA rB)
  | _ => .error (.noSuchCondition ifun)

/-- The arithmetic/logic instruction a function code selects (R57). -/
def opqOf (ifun : Nibble) (rA rB : Reg) : Except DecodeError Instr :=
  match ifun.toNat with
  | 0 => .ok (.addq rA rB)
  | 1 => .ok (.subq rA rB)
  | 2 => .ok (.andq rA rB)
  | 3 => .ok (.xorq rA rB)
  | _ => .error (.noSuchAluOp ifun)

/-- The jump a function code selects (R56). -/
def jumpOf (ifun : Nibble) (valC : Word) : Except DecodeError Instr :=
  match ifun.toNat with
  | 0 => .ok (.jmp valC)
  | 1 => .ok (.jle valC)
  | 2 => .ok (.jl valC)
  | 3 => .ok (.je valC)
  | 4 => .ok (.jne valC)
  | 5 => .ok (.jge valC)
  | 6 => .ok (.jg valC)
  | _ => .error (.noSuchCondition ifun)

/-- The instruction of a class with the fetched fields (R54, R56, R57). -/
def assemble (c : InstrClass) (ifun : Nibble) (rA rB : Reg) (valC : Word) :
    Except DecodeError Instr :=
  match c with
  | .halt => .ok (.halt ifun)
  | .nop => .ok (.nop ifun)
  | .move => moveOf ifun rA rB
  | .irmovq => .ok (.irmovq ifun rA rB valC)
  | .rmmovq => .ok (.rmmovq ifun rA rB valC)
  | .mrmovq => .ok (.mrmovq ifun rA rB valC)
  | .opq => opqOf ifun rA rB
  | .jump => jumpOf ifun valC
  | .call => .ok (.call ifun valC)
  | .ret => .ok (.ret ifun)
  | .pushq => .ok (.pushq ifun rA rB)
  | .popq => .ok (.popq ifun rA rB)

/-- Read one instruction from the front of a byte list, with the bytes after it. The checks stand in
the order of 60_exceptions.md R186: opcode byte, class, register byte, constant word, unused function
code, selecting function code. -/
def decode (cfg : Config) : List Byte → Except DecodeError (Instr × List Byte)
  | [] => .error .truncated
  | b0 :: bs =>
    match InstrClass.ofIcode (highNibble b0) with
    | none => .error (.noSuchClass (highNibble b0))
    | some c =>
      match takeRegs c bs with
      | none => .error .truncated
      | some (rA, rB, bs1) =>
        match takeConst c bs1 with
        | none => .error .truncated
        | some (valC, bs2) =>
          if c.checksUnusedIfun && !ifunAllowed cfg (lowNibble b0) then
            .error (.unusedIfunSet (lowNibble b0))
          else
            match assemble c (lowNibble b0) rA rB valC with
            | .error e => .error e
            | .ok i => .ok (i, bs2)

/-! ## Encoding -/

/-- The opcode byte `icode:ifun` of a class (R51, R54). -/
def opcodeByte (c : InstrClass) (ifun : Nibble) : Byte := nibbles c.icode ifun

/-- The register-specifier byte `rA:rB` (R52). -/
def regByte (rA rB : Reg) : Byte := nibbles rA.toNibble rB.toNibble

/-- The bytes of an instruction in memory order (R50, R54). -/
def encode : Instr → List Byte
  | .halt ifun => [opcodeByte .halt ifun]
  | .nop ifun => [opcodeByte .nop ifun]
  | .rrmovq rA rB => [opcodeByte .move 0, regByte rA rB]
  | .cmovle rA rB => [opcodeByte .move 1, regByte rA rB]
  | .cmovl rA rB => [opcodeByte .move 2, regByte rA rB]
  | .cmove rA rB => [opcodeByte .move 3, regByte rA rB]
  | .cmovne rA rB => [opcodeByte .move 4, regByte rA rB]
  | .cmovge rA rB => [opcodeByte .move 5, regByte rA rB]
  | .cmovg rA rB => [opcodeByte .move 6, regByte rA rB]
  | .irmovq ifun rA rB valC => opcodeByte .irmovq ifun :: regByte rA rB :: leBytes valC
  | .rmmovq ifun rA rB valC => opcodeByte .rmmovq ifun :: regByte rA rB :: leBytes valC
  | .mrmovq ifun rA rB valC => opcodeByte .mrmovq ifun :: regByte rA rB :: leBytes valC
  | .addq rA rB => [opcodeByte .opq 0, regByte rA rB]
  | .subq rA rB => [opcodeByte .opq 1, regByte rA rB]
  | .andq rA rB => [opcodeByte .opq 2, regByte rA rB]
  | .xorq rA rB => [opcodeByte .opq 3, regByte rA rB]
  | .jmp valC => opcodeByte .jump 0 :: leBytes valC
  | .jle valC => opcodeByte .jump 1 :: leBytes valC
  | .jl valC => opcodeByte .jump 2 :: leBytes valC
  | .je valC => opcodeByte .jump 3 :: leBytes valC
  | .jne valC => opcodeByte .jump 4 :: leBytes valC
  | .jge valC => opcodeByte .jump 5 :: leBytes valC
  | .jg valC => opcodeByte .jump 6 :: leBytes valC
  | .call ifun valC => opcodeByte .call ifun :: leBytes valC
  | .ret ifun => [opcodeByte .ret ifun]
  | .pushq ifun rA rB => [opcodeByte .pushq ifun, regByte rA rB]
  | .popq ifun rA rB => [opcodeByte .popq ifun, regByte rA rB]

/-- The length of an instruction in bytes (R55). -/
def Instr.length : Instr → Nat
  | .halt _ => 1
  | .nop _ => 1
  | .rrmovq _ _ => 2
  | .cmovle _ _ => 2
  | .cmovl _ _ => 2
  | .cmove _ _ => 2
  | .cmovne _ _ => 2
  | .cmovge _ _ => 2
  | .cmovg _ _ => 2
  | .irmovq _ _ _ _ => 10
  | .rmmovq _ _ _ _ => 10
  | .mrmovq _ _ _ _ => 10
  | .addq _ _ => 2
  | .subq _ _ => 2
  | .andq _ _ => 2
  | .xorq _ _ => 2
  | .jmp _ => 9
  | .jle _ => 9
  | .jl _ => 9
  | .je _ => 9
  | .jne _ => 9
  | .jge _ => 9
  | .jg _ => 9
  | .call _ _ => 9
  | .ret _ => 1
  | .pushq _ _ _ => 2
  | .popq _ _ _ => 2

/-! ## The host's view of a table word -/

/-- The length of the longest instruction in bytes (R50). -/
def maxLength : Nat := 10

/-- The n low bytes of a number, least significant first. -/
def numberBytes : Nat → Nat → List Byte
  | 0, _ => []
  | n + 1, w => BitVec.ofNat 8 w :: numberBytes n (w / 256)

/-- The bytes, in memory order, of an instruction whose first nbits bits are w and whose other bits
are 0. -/
def tableWordBytes (nbits w : Nat) : List Byte := numberBytes maxLength (w % 2 ^ nbits)

/-- The instruction the decoder reads from a table word, at the default parameters. -/
def decodeTableWord (nbits w : Nat) : Option Instr :=
  match decode Config.default (tableWordBytes nbits w) with
  | .ok (i, _) => some i
  | .error _ => none

end Sys2Proof
end

