-- ==== Sys2Proof/Machine/State.lean ====
section
/-! DEFINITION. The state of the machine (10_state.md, 20_memory.md R30), its reset value (10_state.md
R25), and the reasons a step could give no next state. -/

namespace Sys2Proof.Machine

/-- The status codes (10_state.md R20, 60_exceptions.md R180). Codes 0 and 5 to 7 never occur, and have
no constructor (log entry 7). -/
inductive Stat where
  /-- running, code 1. -/
  | aok
  /-- halted, code 2. -/
  | hlt
  /-- address-error, code 3. -/
  | adr
  /-- invalid-instruction-error, code 4. -/
  | ins
  deriving DecidableEq, Repr

/-- The condition codes (10_state.md R19). -/
structure CC where
  /-- ZF, zero. -/
  zf : Bool
  /-- SF, sign. -/
  sf : Bool
  /-- OF, overflow. -/
  of : Bool
  deriving DecidableEq, Repr

/-- The fifteen general registers, slots 0 to 14 (10_state.md R10, R11). Slot 15 holds nothing (R12);
the accessors in Machine/Ops.lean treat it (log entry 9). -/
structure RegFile where
  rax : Word
  rcx : Word
  rdx : Word
  rbx : Word
  rsp : Word
  rbp : Word
  rsi : Word
  rdi : Word
  r8 : Word
  r9 : Word
  r10 : Word
  r11 : Word
  r12 : Word
  r13 : Word
  r14 : Word
  deriving DecidableEq, Repr

/-- Storage (20_memory.md R30): the bytes that are not 0, as address and byte pairs in strictly rising
address order (Memory.wf, in Machine/Ops.lean; log entry 17). -/
abbrev Memory := List Host.Cell

/-- The architectural state (10_state.md, R10 to R20; 20_memory.md R30), and the parameters of the
machine, which no step changes (log entries 1 to 3). -/
structure State where
  /-- MEM_SIZE, RESET_PC and IGNORE_UNUSED_IFUN (00_scope.md R5 to R7). -/
  cfg : Config
  /-- REG[0..14] (R10). -/
  regs : RegFile
  /-- The program counter (R16). -/
  pc : Word
  /-- The condition codes (R19). -/
  cc : CC
  /-- The status register (R20). -/
  stat : Stat
  /-- Storage (20_memory.md R30). -/
  mem : Memory
  deriving DecidableEq, Repr

/-- Reasons to stop with no next state. There is none: a stop of this hardware is a next state with
another status code (60_exceptions.md R180, R185; log entry 8), and 93_implementation_defined.md leaves
no behaviour undefined. No meaning raises a fault. -/
inductive Fault where
  deriving DecidableEq, Repr

/-- Reasons to give an instruction no meaning. -/
inductive Refusal where
  /-- Raised by exec alone, for an instruction whose meaning is not written; no arm raises it. Safe: the
  machine stops where the hardware goes on. -/
  | notModelled (mnemonic : String)
  deriving DecidableEq, Repr

/-- What a meaning answers. -/
abbrev Result := Host.Outcome State Fault Refusal

/-- All general registers zero (10_state.md R25). -/
def RegFile.zero : RegFile :=
  { rax := 0, rcx := 0, rdx := 0, rbx := 0, rsp := 0, rbp := 0, rsi := 0, rdi := 0,
    r8 := 0, r9 := 0, r10 := 0, r11 := 0, r12 := 0, r13 := 0, r14 := 0 }

/-- The reset state of a machine with these parameters (10_state.md R25; 70_reset_and_hazards.md R200):
registers 0, CC (1, 0, 0), pc RESET_PC, status running, every byte of Storage 0. -/
def State.resetOf (cfg : Config) : State :=
  { cfg := cfg, regs := RegFile.zero, pc := cfg.resetPc,
    cc := { zf := true, sf := false, of := false }, stat := .aok, mem := [] }

/-- The machine right after reset, at the spec's default parameters (R5, R6, R7). -/
def State.reset : State := State.resetOf Config.default

end Sys2Proof.Machine
end

