-- ==== Sys2Proof/Machine/Ops.lean ====
section
/-! DEFINITION. The named operations over registers, Storage and status that every meaning is written
with: the register-file contract (10_state.md R12), the storage contract (20_memory.md R31 to R34), the
stops (60_exceptions.md R180 to R185) and the bytes a fetch can read (40_step_datapath.md R72 to R77). -/

namespace Sys2Proof.Machine

/-! ## Registers -/

/-- `x[i]`: slot 15 reads 0 (10_state.md R12). -/
def RegFile.get (f : RegFile) : Reg → Word
  | .rax => f.rax
  | .rcx => f.rcx
  | .rdx => f.rdx
  | .rbx => f.rbx
  | .rsp => f.rsp
  | .rbp => f.rbp
  | .rsi => f.rsi
  | .rdi => f.rdi
  | .r8 => f.r8
  | .r9 => f.r9
  | .r10 => f.r10
  | .r11 => f.r11
  | .r12 => f.r12
  | .r13 => f.r13
  | .r14 => f.r14
  | .rnone => 0

/-- `x[i] <- v`: a write to slot 15 is discarded (R12). -/
def RegFile.set (f : RegFile) (r : Reg) (v : Word) : RegFile :=
  match r with
  | .rax => { f with rax := v }
  | .rcx => { f with rcx := v }
  | .rdx => { f with rdx := v }
  | .rbx => { f with rbx := v }
  | .rsp => { f with rsp := v }
  | .rbp => { f with rbp := v }
  | .rsi => { f with rsi := v }
  | .rdi => { f with rdi := v }
  | .r8 => { f with r8 := v }
  | .r9 => { f with r9 := v }
  | .r10 => { f with r10 := v }
  | .r11 => { f with r11 := v }
  | .r12 => { f with r12 := v }
  | .r13 => { f with r13 := v }
  | .r14 => { f with r14 := v }
  | .rnone => f

/-- `x[r]` of the machine. -/
def State.reg (s : State) (r : Reg) : Word := s.regs.get r

/-- `x[r] <- v` of the machine. -/
def State.setReg (s : State) (r : Reg) (v : Word) : State := { s with regs := s.regs.set r v }

/-- `pc <- target`. The target is not checked (40_step_datapath.md R91, 10_state.md R18). -/
def State.setPc (s : State) (target : Word) : State := { s with pc := target }

/-- `CC <- c`, all three flags at once (R83). -/
def State.setCC (s : State) (c : CC) : State := { s with cc := c }

/-! ## Storage as a sparse list -/

/-- What a byte nothing has written reads as: 0, by the reset contents of Storage (20_memory.md R41). -/
def Memory.unlisted : Byte := 0

/-- The byte at an address. -/
def Memory.read : Memory → Nat → Byte
  | [], _ => Memory.unlisted
  | (k, b) :: m, a => if k = a then b else Memory.read m a

/-- Put an entry before the first one with a larger address. -/
def Memory.insert : Memory → Nat → Byte → Memory
  | [], a, v => [(a, v)]
  | (k, b) :: m, a, v => if a < k then (a, v) :: (k, b) :: m else (k, b) :: Memory.insert m a v

/-- Write one byte: what stood at the address goes, and the new entry takes its place in address order,
but for a byte that an unlisted address reads as, which gets no entry. -/
def Memory.write (m : Memory) (a : Nat) (v : Byte) : Memory :=
  let others : Memory := m.filter fun c => c.1 != a
  if v = Memory.unlisted then others else others.insert a v

/-- The canonical form: addresses strictly rising, and no entry equal to what an unlisted address reads
as, so that equal memories are equal lists. -/
abbrev Memory.wf (m : Memory) : Prop :=
  m.Pairwise (fun x y => x.1 < y.1) ∧ ∀ c ∈ m, c.2 ≠ Memory.unlisted

/-- The bytes from address a upward, written to consecutive addresses. -/
def Memory.writeBytes : Memory → Nat → List Byte → Memory
  | m, _, [] => m
  | m, a, b :: bs => Memory.writeBytes (Memory.write m a b) (a + 1) bs

/-- The little-endian word at address a (20_memory.md R33). -/
def Memory.readWord (m : Memory) (a : Nat) : Word :=
  leWord (m.read a) (m.read (a + 1)) (m.read (a + 2)) (m.read (a + 3))
    (m.read (a + 4)) (m.read (a + 5)) (m.read (a + 6)) (m.read (a + 7))

/-! ## The storage contract -/

/-- The byte of Storage at an address, for statements about Storage. -/
def State.byte (s : State) (a : Nat) : Byte := s.mem.read a

/-- `B[a] := v`, unchecked; the callers check the address. -/
def State.setByte (s : State) (a : Nat) (v : Byte) : State := { s with mem := s.mem.write a v }

/-- A byte address is in Storage (20_memory.md R31). -/
def byteInBounds (cfg : Config) (a : Nat) : Bool := a < cfg.memSize

/-- A word access at a is valid: a <= MEM_SIZE - 8, never by the sum a + 8 (R32). The subtraction does
not truncate, since MEM_SIZE >= 8 (00_scope.md R5). -/
def wordInBounds (cfg : Config) (a : Word) : Bool := a.toNat ≤ cfg.memSize - 8

/-- MemReadByte(a) (R31); none is the spec's ok = false. -/
def State.readByte (s : State) (a : Nat) : Option Byte :=
  if byteInBounds s.cfg a then some (s.mem.read a) else none

/-- MemRead(a, 8) (R33); none is the spec's ok = false. -/
def State.readWord (s : State) (a : Word) : Option Word :=
  if wordInBounds s.cfg a then some (s.mem.readWord a.toNat) else none

/-- MemWrite(a, 8, v) (R33, R34); none is the spec's ok = false, with nothing written. -/
def State.writeWord (s : State) (a v : Word) : Option State :=
  if wordInBounds s.cfg a then some { s with mem := s.mem.writeBytes a.toNat (leBytes v) } else none

/-! ## Stops and reset -/

/-- Taking a stop: the status takes the code, and nothing else changes; pc keeps the address of the
instruction (60_exceptions.md R184, R185, R188). There is no return from it but reset (R189). -/
def State.stop (s : State) (code : Stat) : State := { s with stat := code }

/-- Raise ADR, address-error (R181). -/
def State.raiseAdr (s : State) : State := s.stop .adr

/-- Raise INS, invalid-instruction (R182). -/
def State.raiseIns (s : State) : State := s.stop .ins

/-- The way out of a stop: reset, with the same parameters (R189; 70_reset_and_hazards.md R200, R201). -/
def State.resetAgain (s : State) : State := State.resetOf s.cfg

/-- The stop of a failed fetch or decode: a missing byte is ADR (R181 items 1 to 3), an invalid encoding
INS (R182). -/
def stopOf : DecodeError → Stat
  | .truncated => .adr
  | .noSuchClass _ => .ins
  | .unusedIfunSet _ => .ins
  | .noSuchCondition _ => .ins
  | .noSuchAluOp _ => .ins

/-! ## The memory stage (40_step_datapath.md R87, R88) -/

/-- A load at an address: go on with the word read, or raise ADR with nothing written. -/
def loadThen (s : State) (a : Word) (go : Word → State) : Result :=
  match s.readWord a with
  | some valM => .next (go valM)
  | none => .next s.raiseAdr

/-- A store at an address: go on with the state after the store, or raise ADR with nothing written. -/
def storeThen (s : State) (a v : Word) (go : State → State) : Result :=
  match s.writeWord a v with
  | some s' => .next (go s')
  | none => .next s.raiseAdr

/-! ## The bytes of a fetch -/

/-- Up to n bytes from address a upward, ending at the end of Storage. -/
def State.bytesFrom (s : State) : Nat → Nat → List Byte
  | 0, _ => []
  | n + 1, a =>
    match s.readByte a with
    | some b => b :: s.bytesFrom n (a + 1)
    | none => []

/-- The bytes a fetch at pc can read: at most the ten of the longest instruction, and none outside
Storage. Addresses are counted without wrapping: pc + k below MEM_SIZE never wraps (10_state.md R18).
Decoding this list fails with `truncated` exactly where the byte by byte fetch of R72, R75 and R76 raises
ADR (R77; log entry 18). -/
def State.fetchBytes (s : State) : List Byte := s.bytesFrom maxLength s.pc.toNat

/-! ## Placing bytes from outside -/

/-- Write bytes to consecutive addresses from a, leaving out those outside Storage. -/
def State.placeBytes : State → Nat → List Byte → State
  | s, _, [] => s
  | s, a, b :: bs =>
    if byteInBounds s.cfg a then (s.setByte a b).placeBytes (a + 1) bs else s.placeBytes (a + 1) bs

end Sys2Proof.Machine
end

