-- ==== Sys2Proof/Machine/Operands.lean ====
section
/-! DEFINITION. The operand forms (30_encoding.md R53), the ALU (40_step_datapath.md R81, R82) and the
addresses it computes (20_memory.md R40). -/

namespace Sys2Proof.Machine

/-- The four ALU operations (R82). -/
inductive AluOp where
  | add | sub | and | xor
  deriving DecidableEq, Repr

/-- valE = aluB op aluA, modulo 2^64 (R81, R82); a subtraction is second operand minus first. -/
def alu (op : AluOp) (aluA aluB : Word) : Word :=
  match op with
  | .add => aluB + aluA
  | .sub => aluB - aluA
  | .and => aluB &&& aluA
  | .xor => aluB ^^^ aluA

/-- valP, the address after an instruction of this many bytes (R77). -/
def State.valP (s : State) (length : Nat) : Word := s.pc + BitVec.ofNat 64 length

/-- The base plus displacement address `x[rB] + valC`, modulo 2^64 (43_memory_access.md, R130, R131). -/
def State.baseDisp (s : State) (rB : Reg) (valC : Word) : Word := alu .add valC (s.reg rB)

/-- The address push and call store at, which is also the new %rsp: valB - 8, the ALU's sum of valB and
the constant -8 (R81; 20_memory.md R40; 46_stack.md). -/
def State.pushAddr (s : State) : Word := s.reg .rsp - 8

/-- The address pop and return load from: the old %rsp, valB (R87; 90_conflicts.md C1). -/
def State.popAddr (s : State) : Word := s.reg .rsp

/-- The new %rsp of pop and return, `x[RSP] + 8` (R81). -/
def State.popSp (s : State) : Word := alu .add 8 (s.reg .rsp)

end Sys2Proof.Machine
end

