-- ==== Sys2Proof/Machine/Flags.lean ====
section
/-! DEFINITION. The condition codes an arithmetic/logic instruction writes (40_step_datapath.md R83) and
the conditions read from them (R85). -/

namespace Sys2Proof.Machine

/-- OF after an operation with aluA = a, aluB = b and result r (R83). -/
def overflow (op : AluOp) (a b r : Word) : Bool :=
  match op with
  | .add => a.msb == b.msb && r.msb != a.msb
  | .sub => a.msb != b.msb && r.msb != b.msb
  | .and => false
  | .xor => false

/-- The three flags after an operation (R83). -/
def aluFlags (op : AluOp) (a b : Word) : CC :=
  { zf := alu op a b == 0
    sf := (alu op a b).msb
    of := overflow op a b (alu op a b) }

/-- The seven conditions of function codes 0 to 6 (30_encoding.md R56). -/
inductive Cond where
  | always | le | l | e | ne | ge | g
  deriving DecidableEq, Repr

/-- Cond(ifun, CC) of R85. -/
def Cond.holds (c : Cond) (f : CC) : Bool :=
  match c with
  | .always => true
  | .le => (f.sf != f.of) || f.zf
  | .l => f.sf != f.of
  | .e => f.zf
  | .ne => !f.zf
  | .ge => !(f.sf != f.of)
  | .g => !(f.sf != f.of) && !f.zf

end Sys2Proof.Machine
end

