-- ==== Sys2Proof/Machine/Alu.lean ====
section
/-! DEFINITION. Arithmetic and logic (44_alu.md). -/

namespace Sys2Proof.Machine

/-- The arithmetic/logic class (44_alu.md, common pseudocode): A = x[rA], B = x[rB], all three flags
written, then x[rB] <- B op A, then pc + 2. -/
def arithLogic (op : AluOp) (rA rB : Reg) (s : State) : Result :=
  let valA := s.reg rA
  let valB := s.reg rB
  .next (((s.setCC (aluFlags op valA valB)).setReg rB (alu op valA valB)).setPc (s.valP 2))

/-- addq rA, rB (R140). -/
def execAddq (rA rB : Reg) (s : State) : Result := arithLogic .add rA rB s

/-- subq rA, rB (R141): rB - rA. -/
def execSubq (rA rB : Reg) (s : State) : Result := arithLogic .sub rA rB s

/-- andq rA, rB (R142). -/
def execAndq (rA rB : Reg) (s : State) : Result := arithLogic .and rA rB s

/-- xorq rA, rB (R143). -/
def execXorq (rA rB : Reg) (s : State) : Result := arithLogic .xor rA rB s

end Sys2Proof.Machine
end

