-- ==== Sys2Proof/Machine/Branch.lean ====
section
/-! DEFINITION. Jumps (45_branch.md). -/

namespace Sys2Proof.Machine

/-- The branch class (45_branch.md, common pseudocode): pc takes the absolute target if the condition
holds, else the address after the nine bytes. -/
def jumpIf (c : Cond) (valC : Word) (s : State) : Result :=
  .next (s.setPc (if c.holds s.cc then valC else s.valP 9))

/-- jmp valC (R150). -/
def execJmp (valC : Word) (s : State) : Result := jumpIf .always valC s

/-- jle valC (R151). -/
def execJle (valC : Word) (s : State) : Result := jumpIf .le valC s

/-- jl valC (R152). -/
def execJl (valC : Word) (s : State) : Result := jumpIf .l valC s

/-- je valC (R153). -/
def execJe (valC : Word) (s : State) : Result := jumpIf .e valC s

/-- jne valC (R154). -/
def execJne (valC : Word) (s : State) : Result := jumpIf .ne valC s

/-- jge valC (R155). -/
def execJge (valC : Word) (s : State) : Result := jumpIf .ge valC s

/-- jg valC (R156). -/
def execJg (valC : Word) (s : State) : Result := jumpIf .g valC s

end Sys2Proof.Machine
end

