-- ==== Sys2Proof/Machine/HaltNop.lean ====
section
/-! DEFINITION. halt and nop (41_halt_nop.md). -/

namespace Sys2Proof.Machine

/-- halt (R100): the status becomes halted, and pc does not advance. -/
def execHalt (s : State) : Result := .next (s.stop .hlt)

/-- nop (R101). -/
def execNop (s : State) : Result := .next (s.setPc (s.valP 1))

end Sys2Proof.Machine
end

