-- ==== Sys2Proof/Machine/MemoryAccess.lean ====
section
/-! DEFINITION. Memory store and memory load (43_memory_access.md). -/

namespace Sys2Proof.Machine

/-- rmmovq rA, valC(rB) (R130). -/
def execRmmovq (rA rB : Reg) (valC : Word) (s : State) : Result :=
  storeThen s (s.baseDisp rB valC) (s.reg rA) fun s' => s'.setPc (s.valP 10)

/-- mrmovq valC(rB), rA (R131): the address uses the old value of the base. -/
def execMrmovq (rA rB : Reg) (valC : Word) (s : State) : Result :=
  loadThen s (s.baseDisp rB valC) fun valM => (s.setReg rA valM).setPc (s.valP 10)

end Sys2Proof.Machine
end

