-- ==== Sys2Proof/Machine/Moves.lean ====
section
/-! DEFINITION. Register moves, conditional moves and the immediate move (42_moves.md). -/

namespace Sys2Proof.Machine

/-- The register-move mechanism (42_moves.md, common pseudocode): valE = 0 + valA, written to rB if the
condition holds; pc advances by 2 either way. -/
def registerMove (c : Cond) (rA rB : Reg) (s : State) : Result :=
  let valE := alu .add (s.reg rA) 0
  .next ((if c.holds s.cc then s.setReg rB valE else s).setPc (s.valP 2))

/-- rrmovq rA, rB (R110). -/
def execRrmovq (rA rB : Reg) (s : State) : Result := registerMove .always rA rB s

/-- cmovle rA, rB (R111). -/
def execCmovle (rA rB : Reg) (s : State) : Result := registerMove .le rA rB s

/-- cmovl rA, rB (R112). -/
def execCmovl (rA rB : Reg) (s : State) : Result := registerMove .l rA rB s

/-- cmove rA, rB (R113). -/
def execCmove (rA rB : Reg) (s : State) : Result := registerMove .e rA rB s

/-- cmovne rA, rB (R114). -/
def execCmovne (rA rB : Reg) (s : State) : Result := registerMove .ne rA rB s

/-- cmovge rA, rB (R115). -/
def execCmovge (rA rB : Reg) (s : State) : Result := registerMove .ge rA rB s

/-- cmovg rA, rB (R116). -/
def execCmovg (rA rB : Reg) (s : State) : Result := registerMove .g rA rB s

/-- irmovq $valC, rB (R118): all 64 bits of the constant, no extension. -/
def execIrmovq (rB : Reg) (valC : Word) (s : State) : Result :=
  .next ((s.setReg rB (alu .add valC 0)).setPc (s.valP 10))

end Sys2Proof.Machine
end

