-- ==== Sys2Proof/Machine/Stack.lean ====
section
/-! DEFINITION. Stack instructions (46_stack.md). -/

namespace Sys2Proof.Machine

/-- pushq rA (R170): the operand is read before %rsp changes, so pushq %rsp stores the old %rsp. -/
def execPushq (rA : Reg) (s : State) : Result :=
  storeThen s s.pushAddr (s.reg rA) fun s' => (s'.setReg .rsp s.pushAddr).setPc (s.valP 2)

/-- popq rA (R171): %rsp first, then rA, so popq %rsp leaves the loaded word (D13, log entry 12). -/
def execPopq (rA : Reg) (s : State) : Result :=
  loadThen s s.popAddr fun valM => ((s.setReg .rsp s.popSp).setReg rA valM).setPc (s.valP 2)

/-- call valC (R172): the return address is the address after the nine bytes. -/
def execCall (valC : Word) (s : State) : Result :=
  storeThen s s.pushAddr (s.valP 9) fun s' => (s'.setReg .rsp s.pushAddr).setPc valC

/-- ret (R173). -/
def execRet (s : State) : Result :=
  loadThen s s.popAddr fun valM => (s.setReg .rsp s.popSp).setPc valM

end Sys2Proof.Machine
end

