-- ==== Sys2Proof/Machine/Dispatch.lean ====
section
/-! DEFINITION. The effect of one decoded instruction in a running machine: one arm per constructor. -/

namespace Sys2Proof.Machine

def exec (i : Instr) (s : State) : Host.Outcome State Fault Refusal :=
  match i with
  | .halt _ => Sys2Proof.Machine.execHalt s
  | .nop _ => Sys2Proof.Machine.execNop s
  | .rrmovq rA rB => Sys2Proof.Machine.execRrmovq rA rB s
  | .cmovle rA rB => Sys2Proof.Machine.execCmovle rA rB s
  | .cmovl rA rB => Sys2Proof.Machine.execCmovl rA rB s
  | .cmove rA rB => Sys2Proof.Machine.execCmove rA rB s
  | .cmovne rA rB => Sys2Proof.Machine.execCmovne rA rB s
  | .cmovge rA rB => Sys2Proof.Machine.execCmovge rA rB s
  | .cmovg rA rB => Sys2Proof.Machine.execCmovg rA rB s
  | .irmovq _ _ rB valC => Sys2Proof.Machine.execIrmovq rB valC s
  | .rmmovq _ rA rB valC => Sys2Proof.Machine.execRmmovq rA rB valC s
  | .mrmovq _ rA rB valC => Sys2Proof.Machine.execMrmovq rA rB valC s
  | .addq rA rB => Sys2Proof.Machine.execAddq rA rB s
  | .subq rA rB => Sys2Proof.Machine.execSubq rA rB s
  | .andq rA rB => Sys2Proof.Machine.execAndq rA rB s
  | .xorq rA rB => Sys2Proof.Machine.execXorq rA rB s
  | .jmp valC => Sys2Proof.Machine.execJmp valC s
  | .jle valC => Sys2Proof.Machine.execJle valC s
  | .jl valC => Sys2Proof.Machine.execJl valC s
  | .je valC => Sys2Proof.Machine.execJe valC s
  | .jne valC => Sys2Proof.Machine.execJne valC s
  | .jge valC => Sys2Proof.Machine.execJge valC s
  | .jg valC => Sys2Proof.Machine.execJg valC s
  | .call _ valC => Sys2Proof.Machine.execCall valC s
  | .ret _ => Sys2Proof.Machine.execRet s
  | .pushq _ rA _ => Sys2Proof.Machine.execPushq rA s
  | .popq _ rA _ => Sys2Proof.Machine.execPopq rA s

end Sys2Proof.Machine
end

