-- ==== Sys2Proof/Machine/Step.lean ====
section
/-! DEFINITION. One step (40_step_datapath.md R70, R71), and the placing of an instruction word where
the next step fetches it. -/

namespace Sys2Proof.Machine

/-- One step: a no-op unless the status is running (R70); else fetch and decode at pc, a stop where that
fails (R72 to R78, R82, R85), and the effect of the instruction where it does not. -/
def step (s : State) : Host.Outcome State Fault Refusal :=
  match s.stat with
  | .aok =>
    match decode s.cfg s.fetchBytes with
    | .ok (i, _) => exec i s
    | .error e => .next (s.stop (stopOf e))
  | .hlt => .next s
  | .adr => .next s
  | .ins => .next s

/-- The state with an instruction of nbits bits stored at pc, padded with 0 bytes to the longest length,
and the status running, as the fetch needs (log entry 14). -/
def State.withFetchWord (s : State) (nbits w : Nat) : State :=
  ({ s with stat := .aok } : State).placeBytes s.pc.toNat (tableWordBytes nbits w)

end Sys2Proof.Machine
end

