-- ==== Sys2Proof/Machine/Boot.lean ====
section
/-! DEFINITION. What the host does to the block between steps (70_reset_and_hazards.md R202, R207,
R208), and the run of the driver (R209). The textual form of a listing is outside the spec (00_scope.md
R3); a line is taken after its tokens are read (log entry 15). -/

namespace Sys2Proof.Machine

/-- One listing line after tokenising (30_encoding.md R65): the address, none where it is empty or does
not parse or the line has no colon; and the byte tokens, none for an odd or invalid one. -/
structure ListingLine where
  addr : Option Nat
  tokens : List (Option Byte)
  deriving DecidableEq, Repr

/-- writeByte of the storage contract (10_state.md R24; 20_memory.md R31). -/
def State.writeByte (s : State) (a : Nat) (v : Byte) : Option State :=
  if byteInBounds s.cfg a then some (s.setByte a v) else none

/-- The byte writes of one line from address a: an invalid token ends the line without failure, an
out-of-bounds write fails the load, and what was written stays (R65, R202). -/
def loadTokens : State → Nat → List (Option Byte) → State × Bool
  | s, _, [] => (s, true)
  | s, _, none :: _ => (s, true)
  | s, a, some b :: ts =>
    match s.writeByte a b with
    | some s' => loadTokens s' (a + 1) ts
    | none => (s, false)

/-- One line; a line with no address is skipped (R65). -/
def loadLine (s : State) (line : ListingLine) : State × Bool :=
  match line.addr with
  | none => (s, true)
  | some a => loadTokens s a line.tokens

/-- The load of a whole listing: Storage after it, and whether it succeeded. The first out-of-bounds
write ends it, without rollback (R202 item 3). -/
def loadListing : State → List ListingLine → State × Bool
  | s, [] => (s, true)
  | s, line :: rest =>
    match loadLine s line with
    | (s', true) => loadListing s' rest
    | (s', false) => (s', false)

/-- The moves of R208 that change the block. -/
inductive HostMove where
  | reset
  | load (lines : List ListingLine)
  | setRegister (r : Reg) (v : Word)
  | step
  deriving DecidableEq, Repr

/-- The block after a host move (R208). When the host may make which is R202 and R207. -/
def hostMove (s : State) : HostMove → Result
  | .reset => .next s.resetAgain
  | .load lines => .next (loadListing s lines).1
  | .setRegister r v => .next (s.setReg r v)
  | .step => step s

/-- The numeric status code (10_state.md R20, three bits by R24). -/
def Stat.code : Stat → BitVec 3
  | .aok => 1
  | .hlt => 2
  | .adr => 3
  | .ins => 4

/-- The sixteen words getAll() returns; slot 15 reads 0 (R24). -/
def State.getAll (s : State) : List Word :=
  [s.reg .rax, s.reg .rcx, s.reg .rdx, s.reg .rbx, s.reg .rsp, s.reg .rbp, s.reg .rsi, s.reg .rdi,
   s.reg .r8, s.reg .r9, s.reg .r10, s.reg .r11, s.reg .r12, s.reg .r13, s.reg .r14, s.reg .rnone]

/-- The word at an aligned address for each listed byte, where the word lies in Storage, each once. -/
def sparseWords (cfg : Config) (whole : Memory) : Memory → Option Nat → List (Nat × Word)
  | [], _ => []
  | (a, _) :: rest, last =>
    let base := a - a % 8
    if last = some base then sparseWords cfg whole rest last
    else if base ≤ cfg.memSize - 8 then
      (base, whole.readWord base) :: sparseWords cfg whole rest (some base)
    else sparseWords cfg whole rest (some base)

/-- The 15 addressable registers with their architectural names (10_state.md R11; log entry 5). -/
def namedRegisters : List (String × Reg) :=
  [("%rax", .rax), ("%rcx", .rcx), ("%rdx", .rdx), ("%rbx", .rbx), ("%rsp", .rsp), ("%rbp", .rbp),
   ("%rsi", .rsi), ("%rdi", .rdi), ("%r8", .r8), ("%r9", .r9), ("%r10", .r10), ("%r11", .r11),
   ("%r12", .r12), ("%r13", .r13), ("%r14", .r14)]

/-- The reporter's record (60_exceptions.md R195; R208): its content, not its layout. -/
structure Report where
  pc : Word
  code : BitVec 3
  /-- The 15 addressable registers by name, in the order of their numbers. -/
  registers : List (String × Word)
  cc : CC
  /-- The non-zero words at addresses that are multiples of 8. -/
  words : List (Nat × Word)
  deriving DecidableEq, Repr

/-- The record of a state: all 15 addressable registers by name, and the sparse map (R208). -/
def State.report (s : State) : Report :=
  { pc := s.pc, code := s.stat.code, registers := namedRegisters.map fun e => (e.1, s.reg e.2), cc := s.cc,
    words := sparseWords s.cfg s.mem s.mem none }

/-- How the driver's run ends (R209). -/
inductive RunEnd where
  /-- The load failed: no step is issued (R202 item 3). -/
  | loadFailed
  /-- MAX_STEPS steps left the status running: the run has not ended (R209). -/
  | outOfFuel
  /-- The end state, the first whose status is not running. -/
  | ended (s : State)
  deriving DecidableEq, Repr

/-- The driver's loop: steps while the status is running and fewer than maxSteps have been issued
(R202 item 5; 00_scope.md R8). A fault or refusal, which no meaning answers with, would leave the run
unended. -/
def drive : Nat → State → RunEnd
  | 0, s => if s.stat = .aok then .outOfFuel else .ended s
  | n + 1, s =>
    if s.stat = .aok then
      match step s with
      | .next t => drive n t
      | .fault _ => .outOfFuel
      | .refused _ => .outOfFuel
    else .ended s

/-- Register values set by the host before the run (R202 item 4). -/
def setRegisters : State → List (Reg × Word) → State
  | s, [] => s
  | s, (r, v) :: rest => setRegisters (s.setReg r v) rest

/-- A whole run (R202, R209): reset, load, registers set, then the driver's loop. -/
def bootAndRun (cfg : Config) (lines : List ListingLine) (registers : List (Reg × Word))
    (maxSteps : Nat) : RunEnd :=
  match loadListing (State.resetOf cfg) lines with
  | (_, false) => .loadFailed
  | (s, true) => drive maxSteps (setRegisters s registers)

end Sys2Proof.Machine
end

