-- ==== Sys2Proof/Safety.lean ====
section
/-! DEFINITION. The terms claims are stated in: the invariant of the machine, what stands in Storage,
what a step leaves unchanged, and how a step takes an instruction from bytes. -/

namespace Sys2Proof.Machine

/-- The invariant: Storage is in its canonical form and holds no byte at or above MEM_SIZE
(20_memory.md R30: addresses 0 to MEM_SIZE - 1, never resized). -/
abbrev State.inv (s : State) : Prop :=
  s.mem.wf ∧ ∀ c ∈ s.mem, c.1 < s.cfg.memSize

/-- A word access at the address lies in Storage (20_memory.md R32). -/
abbrev WordOk (s : State) (a : Word) : Prop := a.toNat ≤ s.cfg.memSize - 8

/-- The word whose bytes stand at the eight addresses from a, the byte at a + k being bits [8k+7 : 8k]
(20_memory.md R33). -/
abbrev HoldsWord (s : State) (a v : Word) : Prop :=
  ∀ k, k < 8 → s.byte (a.toNat + k) = v.extractLsb' (8 * k) 8

/-- Every byte of Storage reads as before. -/
def SameStorage (s t : State) : Prop := ∀ a, t.byte a = s.byte a

/-- Every byte of Storage outside the eight from address a reads as before. -/
def SameStorageOutside (s t : State) (a : Word) : Prop :=
  ∀ k, ¬ (a.toNat ≤ k ∧ k < a.toNat + 8) → t.byte k = s.byte k

/-- Every register but those listed reads as before. -/
def SameRegsBut (s t : State) (changed : List Reg) : Prop :=
  ∀ r, r ∉ changed → t.reg r = s.reg r

/-- The status and the parameters are as before. -/
def SameStatus (s t : State) : Prop := t.stat = s.stat ∧ t.cfg = s.cfg

/-- The eight bytes of a constant word in memory order (30_encoding.md R53). -/
def constBytes (v : Word) : List Byte := (List.range 8).map fun k => v.extractLsb' (8 * k) 8

/-- As far as they lie in Storage, the bytes stand at pc and upward. -/
abbrev FetchesBytes (s : State) (bytes : List Byte) : Prop :=
  ∀ k, (h : k < bytes.length) → s.pc.toNat + k < s.cfg.memSize → s.byte (s.pc.toNat + k) = bytes[k]

/-- A running machine that finds the bytes at pc raises ADR if one of them lies outside Storage
(40_step_datapath.md R77), raises INS if the function code is not allowed (R78), and has the effect of the
instruction otherwise. -/
def RunsAs (s : State) (bytes : List Byte) (allowed : Bool) (i : Instr) : Prop :=
  s.stat = .aok → FetchesBytes s bytes →
    step s =
      if s.pc.toNat + bytes.length ≤ s.cfg.memSize then
        if allowed then exec i s else .next { s with stat := .ins }
      else .next { s with stat := .adr }

/-- The instruction moves rA to rB if told to, and changes nothing else but pc, which advances by 2. -/
def MovesIf (taken : Bool) (i : Instr) (rA rB : Reg) (s : State) : Prop :=
  ∃ t, exec i s = .next t ∧ t.pc = s.pc + 2 ∧ t.cc = s.cc ∧ SameStatus s t ∧ SameStorage s t ∧
    SameRegsBut s t [rB] ∧ t.reg rB = if taken && rB != .rnone then s.reg rA else s.reg rB

/-- The instruction writes the result R to rB, writes the flags of R and the overflow given, and changes
nothing else but pc, which advances by 2. A result for the sentinel is discarded. -/
def Computes (i : Instr) (rB : Reg) (s : State) (R : Word) (overflows : Bool) : Prop :=
  ∃ t, exec i s = .next t ∧ t.pc = s.pc + 2 ∧ t.cc = { zf := R == 0, sf := R[63], of := overflows } ∧
    SameStatus s t ∧ SameStorage s t ∧ SameRegsBut s t [rB] ∧ t.reg rB = if rB = .rnone then 0 else R

/-- The instruction sets pc to the target if told to, else to pc + 9, and changes nothing else. -/
def JumpsIf (taken : Bool) (i : Instr) (target : Word) (s : State) : Prop :=
  ∃ t, exec i s = .next t ∧ t.pc = (if taken then target else s.pc + 9) ∧ t.cc = s.cc ∧
    SameStatus s t ∧ SameStorage s t ∧ SameRegsBut s t []

/-- The arithmetic/logic class, the writers of the condition codes (10_state.md R19). -/
def IsArithLogic : Instr → Prop
  | .addq _ _ | .subq _ _ | .andq _ _ | .xorq _ _ => True
  | _ => False

/-- The address an instruction stores a word at, for the three that store (20_memory.md R36). -/
def storeAddr (i : Instr) (s : State) : Option Word :=
  match i with
  | .rmmovq _ _ rB valC => some (s.baseDisp rB valC)
  | .pushq _ _ _ => some s.pushAddr
  | .call _ _ => some s.pushAddr
  | _ => none

end Sys2Proof.Machine
end

