-- ==== Sys2Proof/Certificates/Slice0/Obligations.lean ====
section
/-! DEFINITION. The statements for the provers. Register numbers, opcode numbers and the nibble order
under them are the spec's decisions D1 to D4 (log entries 4, 5), the lengths of call and ret D5 (log
entry 6). -/

open Sys2Proof Sys2Proof.Machine

/-! ## Encoding -/

/-- A few words written out from the encodings of 30_encoding.md section 3 and 95_test_vectors.md, each
followed by anything. The opcode numbers are the spec's decisions D1 to D3 (log entry 4). -/
def Obligations.DecodesWordsOfTheSpec : Prop :=
  ∀ rest : List Byte,
    decode Config.default (0x30 :: 0xf2 :: 0x0a :: 0 :: 0 :: 0 :: 0 :: 0 :: 0 :: 0 :: rest) =
      .ok (.irmovq 0 .rnone .rdx 10, rest) ∧
    decode Config.default (0x61 :: 0x21 :: rest) = .ok (.subq .rdx .rcx, rest) ∧
    decode Config.default (0x50 :: 0x63 :: 8 :: 0 :: 0 :: 0 :: 0 :: 0 :: 0 :: 0 :: rest) =
      .ok (.mrmovq 0 .rsi .rbx 8, rest) ∧
    decode Config.default (0x74 :: 0x1e :: 0 :: 0 :: 0 :: 0 :: 0 :: 0 :: 0 :: rest) =
      .ok (.jne 0x1e, rest) ∧
    decode Config.default (0xa0 :: 0x6f :: rest) = .ok (.pushq 0 .rsi .rnone, rest)

/-- Decoding the bytes of a well-formed instruction gives it back, with every field at every value and
whatever bytes follow, on every machine. -/
def Obligations.DecodeOfEncodeIsIdentity : Prop :=
  ∀ (cfg : Config) (i : Instr) (rest : List Byte),
    i.wf cfg = true → decode cfg (encode i ++ rest) = .ok (i, rest)

/-- What decodes is a well-formed instruction term whose own bytes stand at the front: no bit is dropped,
and no two encodings give one term. That is of the model's terms: they carry the fields the hardware
ignores (30_encoding.md R58, R62), which is the model's own choice (log entry 10); on the hardware 0x10 to
0x1F are all one nop, where unused function codes are ignored. -/
def Obligations.EncodeOfDecodeIsIdentity : Prop :=
  ∀ (cfg : Config) (bytes rest : List Byte) (i : Instr),
    decode cfg bytes = .ok (i, rest) → i.wf cfg = true ∧ encode i ++ rest = bytes

/-- Which opcode bytes are instructions, by their two nibbles, when nine bytes follow: the classes 0 to
0xB, with function codes 0 to 6 for moves and jumps and 0 to 3 for arithmetic/logic, and an unused
function code of 0 on a machine that checks it, but for halt. Every other byte is rejected as invalid,
which stops with INS. The classes, codes and INS are the spec's decisions D1, D3, D6 to D9 (log entries
3, 4, 11). -/
def Obligations.OpcodeByteIsInstructionOrInvalid : Prop :=
  ∀ (cfg : Config) (b0 : Byte) (bs : List Byte), 9 ≤ bs.length →
    let icode := b0.toNat / 16
    let ifun := b0.toNat % 16
    let legal := icode ≤ 0xB ∧ (icode = 2 ∨ icode = 7 → ifun ≤ 6) ∧ (icode = 6 → ifun ≤ 3) ∧
      (cfg.ignoreUnusedIfun = false → icode ≠ 0 → icode ≠ 2 → icode ≠ 6 → icode ≠ 7 → ifun = 0)
    (legal → ∃ i rest, decode cfg (b0 :: bs) = .ok (i, rest)) ∧
    (¬ legal → ∃ e, decode cfg (b0 :: bs) = .error e ∧ stopOf e = .ins)

/-! ## The step -/

/-- R70: a step of a machine whose status is not 1 changes nothing, however often it is asked. -/
def Obligations.StoppedMachineStepsAreNoOps : Prop :=
  ∀ s : State, s.stat.code ≠ 1 →
    step s = .next s ∧ ∀ n, Host.Core.run Sys2Proof.core n s = .next s

/-- A running machine whose Storage holds, at pc, bytes that decode to an instruction, all of them inside
Storage, runs exactly that instruction; the step adds nothing around it. -/
def Obligations.StepRunsTheDecodedInstruction : Prop :=
  ∀ (s : State) (bytes : List Byte) (i : Instr),
    s.stat = .aok → decode s.cfg bytes = .ok (i, []) →
    s.pc.toNat + bytes.length ≤ s.cfg.memSize → FetchesBytes s bytes →
    step s = exec i s

/-- The stops of fetch and decode in the order of R186, each leaving all but the status: no opcode byte;
no such class; a missing later byte, by the length of the class (R77); an unused function code on a
machine that checks it; a function code that selects nothing. The INS clauses are the spec's decisions D6
to D9 (log entries 3, 11); the lengths 9 of call, class 8, and 1 of ret, class 9, are its decision D5 (log
entry 6). -/
def Obligations.FetchStopsInPriorityOrder : Prop :=
  ∀ s : State, s.stat = .aok →
    let pc := s.pc.toNat
    let icode := (s.byte pc).toNat / 16
    let ifun := (s.byte pc).toNat % 16
    let len := if icode ∈ [3, 4, 5] then 10 else if icode ∈ [7, 8] then 9
      else if icode ∈ [2, 6, 0xA, 0xB] then 2 else 1
    let unused := icode ∈ [1, 3, 4, 5, 8, 9, 0xA, 0xB] ∧ ifun ≠ 0 ∧ s.cfg.ignoreUnusedIfun = false
    let selectsNone := (icode ∈ [2, 7] ∧ 7 ≤ ifun) ∨ (icode = 6 ∧ 4 ≤ ifun)
    (s.cfg.memSize ≤ pc → step s = .next { s with stat := .adr }) ∧
    (pc < s.cfg.memSize → 0xC ≤ icode → step s = .next { s with stat := .ins }) ∧
    (pc < s.cfg.memSize → s.cfg.memSize < pc + len → icode < 0xC →
      step s = .next { s with stat := .adr }) ∧
    (pc + len ≤ s.cfg.memSize → unused ∨ selectsNone → step s = .next { s with stat := .ins }) ∧
    (pc + len ≤ s.cfg.memSize → icode < 0xC → ¬ unused → ¬ selectsNone →
      ∃ i, i.length = len ∧ step s = exec i s)

/-- A step that leaves the machine stopped has changed nothing but the status: a stop is precise, in
every stage and for every instruction (60_exceptions.md section 2, which derives it from the step). -/
def Obligations.StopsArePrecise : Prop :=
  ∀ s t : State, step s = .next t → t.stat ≠ .aok → t = { s with stat := t.stat }

/-- Every step of every state has a next state: no fault, no refusal (93_implementation_defined.md leaves
no behaviour undefined). -/
def Obligations.EveryStepHasANextState : Prop :=
  ∀ (s : State) (n : Nat), (∃ t, step s = .next t) ∧ ∃ t, Host.Core.run Sys2Proof.core n s = .next t

/-! ## Instructions: each from its bytes, with its result, its stop and its frame -/

/-- R100: halt, with any function code, on every machine. -/
def Obligations.HaltStopsAtItsOwnAddress : Prop :=
  ∀ (s : State) (ifun : Nibble),
    RunsAs s [(0x0#4 ++ ifun : Byte)] true (.halt ifun) ∧
    exec (.halt ifun) s = .next { s with stat := .hlt } ∧
    ∀ n, Host.Core.run Sys2Proof.core n { s with stat := .hlt } = .next { s with stat := .hlt }

/-- R101: nop advances pc by 1 and changes nothing else. That an unused function code raises INS on a
machine that checks it is R78 with the spec's decision D7 (log entry 3). -/
def Obligations.NopOnlyAdvances : Prop :=
  ∀ (s : State) (ifun : Nibble),
    RunsAs s [(0x1#4 ++ ifun : Byte)] (s.cfg.ignoreUnusedIfun || ifun == 0) (.nop ifun) ∧
    ∃ t, exec (.nop ifun) s = .next t ∧ t.pc = s.pc + 1 ∧ t.cc = s.cc ∧ SameStatus s t ∧
      SameStorage s t ∧ SameRegsBut s t []

/-- R110 to R116: the register moves, with the condition each rule names. The inference that R111 marks as
derived, about cmovle after subq, is in ConditionsAfterSubqCompareSigned, so R111 is not cited here. -/
def Obligations.RegisterMovesFollowTheirConditions : Prop :=
  ∀ (s : State) (rA rB : Reg),
    let ZF := s.cc.zf; let SF := s.cc.sf; let OF := s.cc.of
    let fields : Byte := rA.toNibble ++ rB.toNibble
    (RunsAs s [0x20, fields] true (.rrmovq rA rB) ∧ MovesIf true (.rrmovq rA rB) rA rB s) ∧
    (RunsAs s [0x21, fields] true (.cmovle rA rB) ∧
      MovesIf ((SF != OF) || ZF) (.cmovle rA rB) rA rB s) ∧
    (RunsAs s [0x22, fields] true (.cmovl rA rB) ∧ MovesIf (SF != OF) (.cmovl rA rB) rA rB s) ∧
    (RunsAs s [0x23, fields] true (.cmove rA rB) ∧ MovesIf ZF (.cmove rA rB) rA rB s) ∧
    (RunsAs s [0x24, fields] true (.cmovne rA rB) ∧ MovesIf (!ZF) (.cmovne rA rB) rA rB s) ∧
    (RunsAs s [0x25, fields] true (.cmovge rA rB) ∧ MovesIf (!(SF != OF)) (.cmovge rA rB) rA rB s) ∧
    (RunsAs s [0x26, fields] true (.cmovg rA rB) ∧
      MovesIf (!(SF != OF) && !ZF) (.cmovg rA rB) rA rB s)

/-- R118: irmovq writes all 64 bits of the constant to rB, whatever rA holds; a write to the sentinel is
discarded. The clause that an unused function code raises INS on a machine that checks it is no part of
that rule: it is R78 with the spec's decision D7 (log entry 3). -/
def Obligations.IrmovqLoadsItsConstant : Prop :=
  ∀ (s : State) (ifun : Nibble) (rA rB : Reg) (V : Word),
    RunsAs s ((0x3#4 ++ ifun : Byte) :: (rA.toNibble ++ rB.toNibble : Byte) :: constBytes V)
      (s.cfg.ignoreUnusedIfun || ifun == 0) (.irmovq ifun rA rB V) ∧
    ∃ t, exec (.irmovq ifun rA rB V) s = .next t ∧ t.pc = s.pc + 10 ∧ t.cc = s.cc ∧ SameStatus s t ∧
      SameStorage s t ∧ SameRegsBut s t [rB] ∧ t.reg rB = if rB = .rnone then 0 else V

/-- R130: rmmovq stores x[rA] at x[rB] + D modulo 2^64, little-endian, or raises ADR with nothing changed.
The clause that an unused function code raises INS on a machine that checks it is no part of that rule: it
is R78 with the spec's decision D7 (log entry 3). -/
def Obligations.RmmovqStoresOrRaisesAdr : Prop :=
  ∀ (s : State) (ifun : Nibble) (rA rB : Reg) (D : Word),
    let i := Instr.rmmovq ifun rA rB D
    RunsAs s ((0x4#4 ++ ifun : Byte) :: (rA.toNibble ++ rB.toNibble : Byte) :: constBytes D)
      (s.cfg.ignoreUnusedIfun || ifun == 0) i ∧
    s.baseDisp rB D = s.reg rB + D ∧
    (WordOk s (s.baseDisp rB D) →
      ∃ t, exec i s = .next t ∧ HoldsWord t (s.baseDisp rB D) (s.reg rA) ∧
        SameStorageOutside s t (s.baseDisp rB D) ∧ t.pc = s.pc + 10 ∧ t.cc = s.cc ∧ SameStatus s t ∧
        SameRegsBut s t []) ∧
    (¬ WordOk s (s.baseDisp rB D) → exec i s = .next { s with stat := .adr })

/-- R131: mrmovq loads rA from x[rB] + D, the base read before rA is written, or raises ADR with nothing
changed; a load into the sentinel is discarded. The clause that an unused function code raises INS on a
machine that checks it is no part of that rule: it is R78 with the spec's decision D7 (log entry 3). -/
def Obligations.MrmovqLoadsOrRaisesAdr : Prop :=
  ∀ (s : State) (ifun : Nibble) (rA rB : Reg) (D : Word),
    let i := Instr.mrmovq ifun rA rB D
    RunsAs s ((0x5#4 ++ ifun : Byte) :: (rA.toNibble ++ rB.toNibble : Byte) :: constBytes D)
      (s.cfg.ignoreUnusedIfun || ifun == 0) i ∧
    (WordOk s (s.reg rB + D) →
      ∃ t v, exec i s = .next t ∧ HoldsWord s (s.reg rB + D) v ∧
        (t.reg rA = if rA = .rnone then 0 else v) ∧ SameRegsBut s t [rA] ∧ t.pc = s.pc + 10 ∧
        t.cc = s.cc ∧ SameStatus s t ∧ SameStorage s t) ∧
    (¬ WordOk s (s.reg rB + D) → exec i s = .next { s with stat := .adr }) ∧
    (∀ rC t, exec (.rmmovq ifun rC rB D) s = .next t → WordOk s (s.reg rB + D) → rA ≠ .rnone →
      ∃ u, exec i t = .next u ∧ u.reg rA = s.reg rC)

/-- R140 to R143: the arithmetic/logic instructions, with their results and all three flags. -/
def Obligations.ArithLogicResultsAndFlags : Prop :=
  ∀ (s : State) (rA rB : Reg),
    let A := s.reg rA; let B := s.reg rB
    let fields : Byte := rA.toNibble ++ rB.toNibble
    (RunsAs s [0x60, fields] true (.addq rA rB) ∧
      Computes (.addq rA rB) rB s (B + A) (A[63] == B[63] && (B + A)[63] != A[63])) ∧
    (RunsAs s [0x61, fields] true (.subq rA rB) ∧
      Computes (.subq rA rB) rB s (B - A) (A[63] != B[63] && (B - A)[63] != B[63])) ∧
    (RunsAs s [0x62, fields] true (.andq rA rB) ∧ Computes (.andq rA rB) rB s (B &&& A) false) ∧
    (RunsAs s [0x63, fields] true (.xorq rA rB) ∧ Computes (.xorq rA rB) rB s (B ^^^ A) false)

/-- R150 to R156: the jumps, to an unchecked absolute target, with the condition each rule names. -/
def Obligations.JumpsFollowTheirConditions : Prop :=
  ∀ (s : State) (D : Word),
    let ZF := s.cc.zf; let SF := s.cc.sf; let OF := s.cc.of
    (RunsAs s (0x70 :: constBytes D) true (.jmp D) ∧ JumpsIf true (.jmp D) D s) ∧
    (RunsAs s (0x71 :: constBytes D) true (.jle D) ∧ JumpsIf ((SF != OF) || ZF) (.jle D) D s) ∧
    (RunsAs s (0x72 :: constBytes D) true (.jl D) ∧ JumpsIf (SF != OF) (.jl D) D s) ∧
    (RunsAs s (0x73 :: constBytes D) true (.je D) ∧ JumpsIf ZF (.je D) D s) ∧
    (RunsAs s (0x74 :: constBytes D) true (.jne D) ∧ JumpsIf (!ZF) (.jne D) D s) ∧
    (RunsAs s (0x75 :: constBytes D) true (.jge D) ∧ JumpsIf (!(SF != OF)) (.jge D) D s) ∧
    (RunsAs s (0x76 :: constBytes D) true (.jg D) ∧ JumpsIf (!(SF != OF) && !ZF) (.jg D) D s)

/-- R170: pushq stores the old value of rA (pushq %rsp too) at %rsp - 8 and moves %rsp there, or raises
ADR with nothing changed. The clause that an unused function code raises INS on a machine that checks it
is no part of that rule: it is R78 with the spec's decision D7 (log entry 3). -/
def Obligations.PushqStoresBelowTheStackPointer : Prop :=
  ∀ (s : State) (ifun : Nibble) (rA rB : Reg),
    let i := Instr.pushq ifun rA rB
    RunsAs s [(0xA#4 ++ ifun : Byte), (rA.toNibble ++ rB.toNibble : Byte)]
      (s.cfg.ignoreUnusedIfun || ifun == 0) i ∧
    s.pushAddr = s.reg .rsp - 8 ∧
    (WordOk s s.pushAddr →
      ∃ t, exec i s = .next t ∧ HoldsWord t s.pushAddr (s.reg rA) ∧ SameStorageOutside s t s.pushAddr ∧
        t.reg .rsp = s.reg .rsp - 8 ∧ SameRegsBut s t [.rsp] ∧ t.pc = s.pc + 2 ∧ t.cc = s.cc ∧
        SameStatus s t) ∧
    (¬ WordOk s s.pushAddr → exec i s = .next { s with stat := .adr })

/-- popq loads rA from the old %rsp and adds 8 to %rsp, or raises ADR with nothing changed. For popq %rsp
the loaded word wins: the order of the two writes is the spec's decision D13 (log entry 12). That an
unused function code raises INS on a machine that checks it is 40_step_datapath.md section 2 with the
spec's decision D7 (log entry 3). -/
def Obligations.PopqLoadsFromTheStackPointer : Prop :=
  ∀ (s : State) (ifun : Nibble) (rA rB : Reg),
    let i := Instr.popq ifun rA rB
    RunsAs s [(0xB#4 ++ ifun : Byte), (rA.toNibble ++ rB.toNibble : Byte)]
      (s.cfg.ignoreUnusedIfun || ifun == 0) i ∧
    (WordOk s (s.reg .rsp) →
      ∃ t v, exec i s = .next t ∧ HoldsWord s (s.reg .rsp) v ∧
        (t.reg rA = if rA = .rnone then 0 else v) ∧ (rA ≠ .rsp → t.reg .rsp = s.reg .rsp + 8) ∧
        SameRegsBut s t [.rsp, rA] ∧ t.pc = s.pc + 2 ∧ t.cc = s.cc ∧ SameStatus s t ∧
        SameStorage s t) ∧
    (¬ WordOk s (s.reg .rsp) → exec i s = .next { s with stat := .adr })

/-- call stores the return address pc + 9 at %rsp - 8, moves %rsp there and jumps, or raises ADR with
nothing changed. The nine bytes, and so the return address, are the spec's decision D5 (log entry 6). That
an unused function code raises INS on a machine that checks it is 40_step_datapath.md section 2 with the
spec's decision D7 (log entry 3). -/
def Obligations.CallPushesTheReturnAddress : Prop :=
  ∀ (s : State) (ifun : Nibble) (D : Word),
    let i := Instr.call ifun D
    RunsAs s ((0x8#4 ++ ifun : Byte) :: constBytes D) (s.cfg.ignoreUnusedIfun || ifun == 0) i ∧
    s.pushAddr = s.reg .rsp - 8 ∧
    (WordOk s s.pushAddr →
      ∃ t, exec i s = .next t ∧ HoldsWord t s.pushAddr (s.pc + 9) ∧ SameStorageOutside s t s.pushAddr ∧
        t.reg .rsp = s.reg .rsp - 8 ∧ SameRegsBut s t [.rsp] ∧ t.pc = D ∧ t.cc = s.cc ∧
        SameStatus s t) ∧
    (¬ WordOk s s.pushAddr → exec i s = .next { s with stat := .adr })

/-- ret jumps to the word at %rsp and adds 8 to %rsp, or raises ADR with nothing changed; it writes no
other register (46_stack.md). Its one byte is the spec's decision D5 (log entry 6). That an unused
function code raises INS on a machine that checks it is 40_step_datapath.md section 2 with the spec's
decision D7 (log entry 3). -/
def Obligations.RetPopsTheReturnAddress : Prop :=
  ∀ (s : State) (ifun : Nibble),
    let i := Instr.ret ifun
    RunsAs s [(0x9#4 ++ ifun : Byte)] (s.cfg.ignoreUnusedIfun || ifun == 0) i ∧
    (WordOk s (s.reg .rsp) →
      ∃ t, exec i s = .next t ∧ HoldsWord s (s.reg .rsp) t.pc ∧ t.reg .rsp = s.reg .rsp + 8 ∧
        SameRegsBut s t [.rsp] ∧ t.cc = s.cc ∧ SameStatus s t ∧ SameStorage s t) ∧
    (¬ WordOk s (s.reg .rsp) → exec i s = .next { s with stat := .adr })

/-! ## Arithmetic -/

/-- OF is signed overflow: after addq and subq it says exactly whether the exact signed result lies
outside the 64-bit range, and the stored result is the exact one modulo 2^64 (44_alu.md, integer
arithmetic laws, which derives it). -/
def Obligations.OverflowFlagIsExactRange : Prop :=
  ∀ (s t : State) (rA rB : Reg),
    let A := (s.reg rA).toInt
    let B := (s.reg rB).toInt
    (exec (.addq rA rB) s = .next t →
      (t.cc.of = true ↔ ¬ (-(2 ^ 63) ≤ A + B ∧ A + B < 2 ^ 63)) ∧
      (rB ≠ .rnone → t.reg rB = BitVec.ofInt 64 (A + B))) ∧
    (exec (.subq rA rB) s = .next t →
      (t.cc.of = true ↔ ¬ (-(2 ^ 63) ≤ B - A ∧ B - A < 2 ^ 63)) ∧
      (rB ≠ .rnone → t.reg rB = BitVec.ofInt 64 (B - A)))

/-- After subq rA, rB every conditional jump and move compares the old rB with rA as signed numbers,
exactly, overflow or not (44_alu.md, integer arithmetic laws, and 42_moves.md, cmovle, which derive it). -/
def Obligations.ConditionsAfterSubqCompareSigned : Prop :=
  ∀ (s t : State) (rA rB rC rD : Reg) (D : Word), exec (.subq rA rB) s = .next t →
    let A := (s.reg rA).toInt
    let B := (s.reg rB).toInt
    (JumpsIf (decide (B ≤ A)) (.jle D) D t ∧ JumpsIf (decide (B < A)) (.jl D) D t ∧
      JumpsIf (decide (B = A)) (.je D) D t ∧ JumpsIf (decide (B ≠ A)) (.jne D) D t ∧
      JumpsIf (decide (B ≥ A)) (.jge D) D t ∧ JumpsIf (decide (B > A)) (.jg D) D t) ∧
    MovesIf (decide (B ≤ A)) (.cmovle rC rD) rC rD t ∧ MovesIf (decide (B < A)) (.cmovl rC rD) rC rD t ∧
    MovesIf (decide (B = A)) (.cmove rC rD) rC rD t ∧ MovesIf (decide (B ≠ A)) (.cmovne rC rD) rC rD t ∧
    MovesIf (decide (B ≥ A)) (.cmovge rC rD) rC rD t ∧ MovesIf (decide (B > A)) (.cmovg rC rD) rC rD t

/-! ## Whole-machine rules -/

/-- R17: the pc of every instruction that completes: the target of a taken branch and of call, the word
popped by ret, and else the address after the whole instruction. -/
def Obligations.CompletingInstructionSetsPc : Prop :=
  ∀ (i : Instr) (s t : State), s.stat = .aok → exec i s = .next t → t.stat = .aok →
    let ZF := s.cc.zf; let SF := s.cc.sf; let OF := s.cc.of
    let after (n : Word) := t.pc = s.pc + n
    let branch (taken : Bool) (D : Word) := t.pc = if taken then D else s.pc + 9
    match i with
    | .halt _ => False
    | .nop _ => after 1
    | .rrmovq _ _ | .cmovle _ _ | .cmovl _ _ | .cmove _ _ | .cmovne _ _ | .cmovge _ _
    | .cmovg _ _ => after 2
    | .irmovq _ _ _ _ | .rmmovq _ _ _ _ | .mrmovq _ _ _ _ => after 10
    | .addq _ _ | .subq _ _ | .andq _ _ | .xorq _ _ => after 2
    | .jmp D => branch true D
    | .jle D => branch ((SF != OF) || ZF) D
    | .jl D => branch (SF != OF) D
    | .je D => branch ZF D
    | .jne D => branch (!ZF) D
    | .jge D => branch (!(SF != OF)) D
    | .jg D => branch (!(SF != OF) && !ZF) D
    | .call _ D => t.pc = D
    | .ret _ => HoldsWord s (s.reg .rsp) t.pc
    | .pushq _ _ _ | .popq _ _ _ => after 2

/-- Only a decoded arithmetic/logic instruction of a running machine changes a condition code
(10_state.md section 3). -/
def Obligations.OnlyArithLogicWritesConditionCodes : Prop :=
  ∀ s t : State, step s = .next t → t.cc ≠ s.cc →
    ∃ i rest, s.stat = .aok ∧ decode s.cfg s.fetchBytes = .ok (i, rest) ∧ IsArithLogic i

/-- Only rmmovq, pushq and call change Storage, and only in the eight bytes at the address they compute,
all inside Storage (20_memory.md section 4). -/
def Obligations.OnlyStoresChangeStorage : Prop :=
  ∀ (s t : State) (a : Nat), step s = .next t → t.byte a ≠ s.byte a →
    ∃ i rest w, s.stat = .aok ∧ decode s.cfg s.fetchBytes = .ok (i, rest) ∧ storeAddr i s = some w ∧
      w.toNat ≤ a ∧ a < w.toNat + 8 ∧ a < s.cfg.memSize

/-- Every step keeps the invariant and the parameters: Storage stays canonical and never grows past
MEM_SIZE. -/
def Obligations.StepKeepsStorageInvariant : Prop :=
  ∀ s t : State, s.inv → step s = .next t → t.inv ∧ t.cfg = s.cfg

/-- Every move of the host keeps the invariant and the parameters: reset, load, set register and step. -/
def Obligations.HostMovesKeepStorageInvariant : Prop :=
  ∀ (s t : State) (m : HostMove), s.inv → hostMove s m = .next t → t.inv ∧ t.cfg = s.cfg

/-- The reset state meets the invariant, on every machine. -/
def Obligations.ResetMeetsStorageInvariant : Prop :=
  ∀ cfg : Config, (State.resetOf cfg).inv ∧ State.reset = State.resetOf Config.default

/-- Reset, from any state and any status: every register 0, CC (1, 0, 0), every byte of Storage 0, pc the
parameter RESET_PC and status code 1; the last two are the spec's decisions D10 and D11 (log entries 2,
7). A step of the machine just reset halts at RESET_PC if that lies in Storage. -/
def Obligations.ResetFromAnyState : Prop :=
  ∀ s : State, ∃ t, hostMove s .reset = .next t ∧ (∀ r, t.reg r = 0) ∧
    t.cc = { zf := true, sf := false, of := false } ∧ (∀ a, t.byte a = 0) ∧ t.pc = s.cfg.resetPc ∧
    t.stat.code = 1 ∧ t.cfg = s.cfg ∧
    (s.cfg.resetPc.toNat < s.cfg.memSize → step t = .next { t with stat := .hlt })

/-- R12: slot 15 reads 0 and discards writes; a write to any other slot is read back from it and from no
other. -/
def Obligations.SentinelReadsZeroAndDiscardsWrites : Prop :=
  ∀ (s : State) (r : Reg) (v : Word),
    s.reg .rnone = 0 ∧ s.setReg .rnone v = s ∧ (r ≠ .rnone → (s.setReg r v).reg r = v) ∧
    ∀ r', r' ≠ r → (s.setReg r v).reg r' = s.reg r'

/-- R31, R32: a byte access is valid exactly below MEM_SIZE and reads the byte stored; a word access is
valid exactly up to MEM_SIZE - 8, with no wrapping sum. R33: a valid word write is read back, byte by byte
in little-endian order, and changes no other byte. That an invalid one writes nothing is R34, which the
spec marks as derived (log entry 18). -/
def Obligations.WordAccessContract : Prop :=
  ∀ (s : State) (a v : Word),
    s.readByte a.toNat = (if a.toNat < s.cfg.memSize then some (s.byte a.toNat) else none) ∧
    (WordOk s a → ∃ t w, s.writeWord a v = some t ∧ t.readWord a = some v ∧ HoldsWord t a v ∧
      SameStorageOutside s t a ∧ s.readWord a = some w ∧ HoldsWord s a w) ∧
    (¬ WordOk s a → s.writeWord a v = none ∧ s.readWord a = none)

/-- An address whose signed reading is negative is never in Storage, and so a push or call with %rsp
below 8, as at reset, raises ADR (20_memory.md section 5, which derives it from the bound on MEM_SIZE,
the spec's decision D12; log entry 1). -/
def Obligations.NegativeAddressesAreOutOfBounds : Prop :=
  ∀ s : State, (∀ a : Word, a.toInt < 0 → ¬ WordOk s a) ∧
    ((s.reg .rsp).toNat < 8 → ∀ (ifun : Nibble) (rA rB : Reg) (D : Word),
      exec (.pushq ifun rA rB) s = .next { s with stat := .adr } ∧
      exec (.call ifun D) s = .next { s with stat := .adr })

/-- A push then a pop restores %rsp and brings the pushed value to the destination (46_stack.md). Where
the pop is popq %rsp, that the pushed value stays there rests on the order of popq's two writes, the
spec's decision D13 (log entry 12). -/
def Obligations.PushThenPopRoundTrip : Prop :=
  ∀ (s : State) (f g : Nibble) (rA rA' rB rB' : Reg), WordOk s s.pushAddr →
    ∃ t u, exec (.pushq f rA rA') s = .next t ∧ exec (.popq g rB rB') t = .next u ∧
      (rB ≠ .rsp → u.reg .rsp = s.reg .rsp) ∧ (rB ≠ .rnone → u.reg rB = s.reg rA) ∧
      ∀ r, r ≠ rB → r ≠ .rsp → u.reg r = s.reg r

/-- A call then a ret comes back to the instruction after the call with every register as before
(46_stack.md). That this is pc + 9, call having nine bytes, is the spec's decision D5 (log entry 6). -/
def Obligations.CallThenRetRoundTrip : Prop :=
  ∀ (s : State) (f g : Nibble) (D : Word), WordOk s s.pushAddr →
    ∃ t u, exec (.call f D) s = .next t ∧ t.pc = D ∧ exec (.ret g) t = .next u ∧ u.pc = s.pc + 9 ∧
      u.cc = s.cc ∧ SameRegsBut s u []

/-- A store is seen by the fetch of the next step: when the code a running machine stored at the next pc
is an encoded instruction, the next step runs it (20_memory.md section 6, which derives it). -/
def Obligations.FetchSeesEarlierStore : Prop :=
  ∀ (s t : State) (rA rB : Reg) (D : Word) (i : Instr), s.stat = .aok → i.wf s.cfg = true →
    i.length ≤ 8 → s.baseDisp rB D = s.pc + 10 → WordOk s (s.baseDisp rB D) →
    (∀ k, (h : k < (encode i).length) → (s.reg rA).extractLsb' (8 * k) 8 = (encode i)[k]) →
    exec (.rmmovq 0 rA rB D) s = .next t → step t = exec i t

/-! ## The host -/

/-- Loading one line: its valid bytes up to the first invalid token are written to consecutive addresses,
without rollback; the load fails exactly when one of them would lie outside Storage, and then the bytes
before that one are written. No other byte changes (30_encoding.md section 5; 70_reset_and_hazards.md
section 2). The line is taken after tokenising (log entry 15). -/
def Obligations.LoaderWritesUpToTheFirstFailure : Prop :=
  ∀ (s : State) (a : Nat) (good : List Byte) (rest : List (Option Byte)),
    (rest = [] ∨ ∃ tail, rest = none :: tail) →
    let result := loadLine s { addr := some a, tokens := good.map some ++ rest }
    let t := result.1
    (result.2 = true ↔ good = [] ∨ a + good.length ≤ s.cfg.memSize) ∧
    (∀ k, (h : k < good.length) → a + k < s.cfg.memSize → t.byte (a + k) = good[k]) ∧
    (∀ x, (x < a ∨ a + good.length ≤ x ∨ s.cfg.memSize ≤ x) → t.byte x = s.byte x) ∧
    SameRegsBut s t [] ∧ t.pc = s.pc ∧ t.cc = s.cc ∧ SameStatus s t

/-- The driver's run ends at the first step after which the status is not running, and in that state; a
run that its cap stops has issued all its steps with the status running (70_reset_and_hazards.md
section 6). -/
def Obligations.DriverEndsAtTheFirstStop : Prop :=
  ∀ (n : Nat) (s t : State),
    (drive n s = .ended t ↔
      t.stat ≠ .aok ∧ ∃ k, k ≤ n ∧ Host.Core.run Sys2Proof.core k s = .next t ∧
        ∀ j, j < k → ∃ u : State, Host.Core.run Sys2Proof.core j s = .next u ∧ u.stat = .aok) ∧
    (drive n s = .outOfFuel ↔
      ∃ u : State, Host.Core.run Sys2Proof.core n s = .next u ∧ u.stat = .aok) ∧
    drive n s ≠ .loadFailed

/-- What the reporter records of a state that meets the invariant: pc, the status code, the fifteen
registers by name (the names are the spec's decision D4, log entry 5), the flags, and exactly the non-zero
words at addresses that are multiples of 8 and at most MEM_SIZE - 8 (70_reset_and_hazards.md section 5).
-/
def Obligations.ReportShowsRegistersFlagsAndAlignedWords : Prop :=
  ∀ s : State, s.inv →
    s.report.pc = s.pc ∧ s.report.code = s.stat.code ∧ s.report.cc = s.cc ∧
    s.report.registers =
      [("%rax", s.reg .rax), ("%rcx", s.reg .rcx), ("%rdx", s.reg .rdx), ("%rbx", s.reg .rbx),
       ("%rsp", s.reg .rsp), ("%rbp", s.reg .rbp), ("%rsi", s.reg .rsi), ("%rdi", s.reg .rdi),
       ("%r8", s.reg .r8), ("%r9", s.reg .r9), ("%r10", s.reg .r10), ("%r11", s.reg .r11),
       ("%r12", s.reg .r12), ("%r13", s.reg .r13), ("%r14", s.reg .r14)] ∧
    ∀ a w, (a, w) ∈ s.report.words ↔
      a % 8 = 0 ∧ a ≤ s.cfg.memSize - 8 ∧ w ≠ 0 ∧
        ∀ k, k < 8 → s.byte (a + k) = w.extractLsb' (8 * k) 8
end

