-- ==== Sys2Proof/Laws/Words.lean ====
section
/-! SUPPORT. Nibbles, register fields and little-endian words: each splitting and joining undoes the
other. -/

namespace Sys2Proof

@[simp] theorem highNibble_nibbles (hi lo : Nibble) : highNibble (nibbles hi lo) = hi := by
  revert hi lo; decide

@[simp] theorem lowNibble_nibbles (hi lo : Nibble) : lowNibble (nibbles hi lo) = lo := by
  revert hi lo; decide

@[simp] theorem nibbles_split (b : Byte) : nibbles (highNibble b) (lowNibble b) = b := by
  revert b; decide

theorem highNibble_toNat (b : Byte) : (highNibble b).toNat = b.toNat / 16 := by
  revert b; decide

theorem lowNibble_toNat (b : Byte) : (lowNibble b).toNat = b.toNat % 16 := by
  revert b; decide

@[simp] theorem Reg.ofNibble_toNibble (r : Reg) : Reg.ofNibble r.toNibble = r := by
  cases r <;> rfl

@[simp] theorem Reg.toNibble_ofNibble (n : Nibble) : (Reg.ofNibble n).toNibble = n := by
  revert n; decide

@[simp] theorem InstrClass.ofIcode_icode (c : InstrClass) : InstrClass.ofIcode c.icode = some c := by
  cases c <;> rfl

theorem InstrClass.icode_of_ofIcode (n : Nibble) (c : InstrClass) (h : InstrClass.ofIcode n = some c) :
    c.icode = n := by
  revert n c; decide

/-- Bit i of a little-endian word is bit i mod 8 of its byte i / 8 (20_memory.md R33). -/
theorem leWord_getLsbD (b0 b1 b2 b3 b4 b5 b6 b7 : Byte) (i : Nat) :
    (leWord b0 b1 b2 b3 b4 b5 b6 b7).getLsbD i =
      if i < 8 then b0.getLsbD i else if i < 16 then b1.getLsbD (i - 8)
      else if i < 24 then b2.getLsbD (i - 16) else if i < 32 then b3.getLsbD (i - 24)
      else if i < 40 then b4.getLsbD (i - 32) else if i < 48 then b5.getLsbD (i - 40)
      else if i < 56 then b6.getLsbD (i - 48) else b7.getLsbD (i - 56) := by
  unfold leWord
  have h (m n : Nat) (x : BitVec m) (y : BitVec n) (j : Nat) :=
    BitVec.getLsbD_append (x := x) (y := y) (i := j)
  erw [h]
  rw [h, h, h, h, h, h]
  repeat' split
  all_goals first | rfl | omega

theorem wordByte_getLsbD (w : Word) (k j : Nat) (h : j < 8) :
    (wordByte w k).getLsbD j = w.getLsbD (8 * k + j) := by
  simp [wordByte, h]

theorem wordByte_getLsbD_sub (w : Word) (k i : Nat) (h : 8 * k ≤ i) (h' : i < 8 * k + 8) :
    (wordByte w k).getLsbD (i - 8 * k) = w.getLsbD i := by
  rw [wordByte_getLsbD w k _ (by omega), show 8 * k + (i - 8 * k) = i by omega]

@[simp] theorem leWord_wordBytes (w : Word) :
    leWord (wordByte w 0) (wordByte w 1) (wordByte w 2) (wordByte w 3)
      (wordByte w 4) (wordByte w 5) (wordByte w 6) (wordByte w 7) = w := by
  apply BitVec.eq_of_getLsbD_eq
  intro i hi
  rw [leWord_getLsbD]
  repeat' split
  · exact wordByte_getLsbD_sub w 0 i (by omega) (by omega)
  · exact wordByte_getLsbD_sub w 1 i (by omega) (by omega)
  · exact wordByte_getLsbD_sub w 2 i (by omega) (by omega)
  · exact wordByte_getLsbD_sub w 3 i (by omega) (by omega)
  · exact wordByte_getLsbD_sub w 4 i (by omega) (by omega)
  · exact wordByte_getLsbD_sub w 5 i (by omega) (by omega)
  · exact wordByte_getLsbD_sub w 6 i (by omega) (by omega)
  · exact wordByte_getLsbD_sub w 7 i (by omega) (by omega)

theorem wordByte_leWord (b0 b1 b2 b3 b4 b5 b6 b7 : Byte) (k : Nat) (h : k < 8) :
    wordByte (leWord b0 b1 b2 b3 b4 b5 b6 b7) k = [b0, b1, b2, b3, b4, b5, b6, b7][k] := by
  apply BitVec.eq_of_getLsbD_eq
  intro j hj
  rw [wordByte_getLsbD _ _ _ hj, leWord_getLsbD]
  have : k = 0 ∨ k = 1 ∨ k = 2 ∨ k = 3 ∨ k = 4 ∨ k = 5 ∨ k = 6 ∨ k = 7 := by omega
  rcases this with rfl | rfl | rfl | rfl | rfl | rfl | rfl | rfl <;>
    repeat' first | omega | split
  all_goals simp

theorem leBytes_leWord (b0 b1 b2 b3 b4 b5 b6 b7 : Byte) :
    leBytes (leWord b0 b1 b2 b3 b4 b5 b6 b7) = [b0, b1, b2, b3, b4, b5, b6, b7] := by
  simp [leBytes, wordByte_leWord]

@[simp] theorem length_leBytes (w : Word) : (leBytes w).length = 8 := rfl

theorem getElem_leBytes (w : Word) (k : Nat) (h : k < 8) : (leBytes w)[k]'(by simpa using h) = wordByte w k := by
  have : k = 0 ∨ k = 1 ∨ k = 2 ∨ k = 3 ∨ k = 4 ∨ k = 5 ∨ k = 6 ∨ k = 7 := by omega
  rcases this with rfl | rfl | rfl | rfl | rfl | rfl | rfl | rfl <;> rfl

end Sys2Proof
end

