-- ==== Sys2Proof/Laws/Decode.lean ====
section
/-! SUPPORT. The parts of decoding: each taking of a field undoes the laying out of it. -/

namespace Sys2Proof

@[simp] theorem highNibble_opcodeByte (c : InstrClass) (ifun : Nibble) :
    highNibble (opcodeByte c ifun) = c.icode := highNibble_nibbles _ _

@[simp] theorem lowNibble_opcodeByte (c : InstrClass) (ifun : Nibble) :
    lowNibble (opcodeByte c ifun) = ifun := lowNibble_nibbles _ _

@[simp] theorem highNibble_regByte (rA rB : Reg) : highNibble (regByte rA rB) = rA.toNibble :=
  highNibble_nibbles _ _

@[simp] theorem lowNibble_regByte (rA rB : Reg) : lowNibble (regByte rA rB) = rB.toNibble :=
  lowNibble_nibbles _ _

/-- Taking a word undoes laying it out. -/
@[simp] theorem takeWord_leBytes (w : Word) (rest : List Byte) :
    takeWord (leBytes w ++ rest) = some (w, rest) := by
  simp [takeWord, leBytes]

/-- A taken word stood at the front. -/
theorem leBytes_of_takeWord (bs rest : List Byte) (w : Word) (h : takeWord bs = some (w, rest)) :
    leBytes w ++ rest = bs := by
  match bs, h with
  | b0 :: b1 :: b2 :: b3 :: b4 :: b5 :: b6 :: b7 :: tail, h =>
    simp only [takeWord, Option.some.injEq, Prod.mk.injEq] at h
    obtain ⟨rfl, rfl⟩ := h
    simp [leBytes_leWord]

/-- A word cannot be taken exactly where fewer than eight bytes stand. -/
theorem takeWord_eq_none_iff (bs : List Byte) : takeWord bs = none ↔ bs.length < 8 := by
  match bs with
  | [] | [_] | [_, _] | [_, _, _] | [_, _, _, _] | [_, _, _, _, _] | [_, _, _, _, _, _]
  | [_, _, _, _, _, _, _] => simp [takeWord]
  | _ :: _ :: _ :: _ :: _ :: _ :: _ :: _ :: _ => simp [takeWord]

/-- The length of a class is the opcode byte and the parts it carries (30_encoding.md R55). -/
theorem InstrClass.length_eq (c : InstrClass) :
    c.length = 1 + (if c.hasRegs then 1 else 0) + (if c.hasConst then 8 else 0) := by
  cases c <;> rfl

/-- Everything decoding can answer from an opcode byte and what follows it. -/
theorem decode_cons (cfg : Config) (b0 : Byte) (bs : List Byte) :
    (InstrClass.ofIcode (highNibble b0) = none ∧
      decode cfg (b0 :: bs) = .error (.noSuchClass (highNibble b0))) ∨
    ∃ c, InstrClass.ofIcode (highNibble b0) = some c ∧
      ((bs.length + 1 < c.length ∧ decode cfg (b0 :: bs) = .error .truncated) ∨
       ∃ rA rB valC rest, c.length + rest.length = bs.length + 1 ∧
        (takeRegs c bs).bind (fun x => (takeConst c x.2.2).map fun y => (x.1, x.2.1, y.1, y.2))
          = some (rA, rB, valC, rest) ∧
        decode cfg (b0 :: bs) =
          if c.checksUnusedIfun && !ifunAllowed cfg (lowNibble b0) then
            .error (.unusedIfunSet (lowNibble b0))
          else (assemble c (lowNibble b0) rA rB valC).map fun i => (i, rest)) := by
  cases hc : InstrClass.ofIcode (highNibble b0) with
  | none => exact .inl ⟨rfl, by simp [decode, hc]⟩
  | some c =>
    refine .inr ⟨c, rfl, ?_⟩
    have hlen := c.length_eq
    cases hr : takeRegs c bs with
    | none =>
      refine .inl ⟨?_, by simp [decode, hc, hr]⟩
      cases hregs : c.hasRegs <;> cases bs <;> simp_all [takeRegs]
      omega
    | some x =>
      obtain ⟨rA, rB, bs1⟩ := x
      have hbs1 : bs1.length + (if c.hasRegs then 1 else 0) = bs.length := by
        cases hregs : c.hasRegs <;> cases bs <;> simp_all [takeRegs]
      cases hk : takeConst c bs1 with
      | none =>
        refine .inl ⟨?_, by simp [decode, hc, hr, hk]⟩
        cases hconst : c.hasConst
        · simp [takeConst, hconst] at hk
        · simp only [takeConst, hconst, takeWord_eq_none_iff] at hk
          rw [hlen, hconst, if_pos rfl]
          omega
      | some y =>
        obtain ⟨valC, bs2⟩ := y
        refine .inr ⟨rA, rB, valC, bs2, ?_, by simp [hk], ?_⟩
        · cases hconst : c.hasConst
          · simp only [takeConst, hconst, Option.some.injEq, Prod.mk.injEq] at hk
            rw [hlen, hconst]
            obtain ⟨-, rfl⟩ := hk
            simp only [Bool.false_eq_true, if_false]
            omega
          · simp only [takeConst, hconst] at hk
            have := congrArg List.length (leBytes_of_takeWord bs1 bs2 valC hk)
            rw [List.length_append, length_leBytes] at this
            rw [hlen, hconst, if_pos rfl]
            omega
        · simp only [decode, hc, hr, hk]
          split
          · rfl
          · cases assemble c (lowNibble b0) rA rB valC <;> rfl

end Sys2Proof
end

