-- ==== Sys2Proof/Laws/Memory.lean ====
section
/-! SUPPORT. Storage: reads after writes, and that every operation keeps the canonical form. -/

namespace Sys2Proof.Machine

theorem Memory.read_filter (m : Memory) (a x : Nat) :
    Memory.read (m.filter fun c => c.1 != a) x = if x = a then Memory.unlisted else m.read x := by
  induction m with
  | nil => simp [Memory.read]
  | cons c m ih =>
    obtain ⟨k, b⟩ := c
    by_cases hk : k = a
    · subst hk
      simp only [List.filter_cons, bne_self_eq_false, Bool.false_eq_true, if_false, ih, Memory.read]
      by_cases hx : x = k
      · simp [hx]
      · simp [hx, Ne.symm hx]
    · simp only [List.filter_cons, bne_iff_ne, ne_eq, hk, not_false_eq_true, if_true, Memory.read, ih]
      by_cases hx : k = x
      · subst hx; simp [hk]
      · simp [hx]

theorem Memory.read_insert (m : Memory) (a x : Nat) (v : Byte) (h : ∀ c ∈ m, c.1 ≠ a) :
    (m.insert a v).read x = if x = a then v else m.read x := by
  induction m with
  | nil => simp [Memory.insert, Memory.read, eq_comm]
  | cons c m ih =>
    obtain ⟨k, b⟩ := c
    have hk : k ≠ a := h (k, b) (by simp)
    simp only [Memory.insert]
    split
    · by_cases hx : x = a
      · simp [Memory.read, hx]
      · simp [Memory.read, hx, Ne.symm hx]
    · simp only [Memory.read, ih fun c hc => h c (List.mem_cons_of_mem _ hc)]
      by_cases hx : k = x
      · subst hx; simp [hk]
      · simp [hx]

theorem Memory.fst_ne_of_mem_filter (m : Memory) (a : Nat) (c : Host.Cell)
    (h : c ∈ m.filter fun c => c.1 != a) : c.1 ≠ a := by
  simpa using (List.mem_filter.1 h).2

/-- What an address reads after one byte is written, in any memory. -/
theorem Memory.read_write (m : Memory) (a x : Nat) (v : Byte) :
    (m.write a v).read x = if x = a then v else m.read x := by
  simp only [Memory.write]
  split
  · next hv => rw [Memory.read_filter, hv]
  · rw [Memory.read_insert _ _ _ _ (Memory.fst_ne_of_mem_filter m a), Memory.read_filter]
    split <;> rfl

theorem Memory.mem_insert (m : Memory) (a : Nat) (v : Byte) (c : Host.Cell)
    (h : c ∈ m.insert a v) : c ∈ m ∨ c = (a, v) := by
  induction m with
  | nil => exact .inr (by simpa [Memory.insert] using h)
  | cons d m ih =>
    obtain ⟨k, b⟩ := d
    simp only [Memory.insert] at h
    split at h
    · rcases List.mem_cons.1 h with h | h
      exacts [.inr h, .inl h]
    · rcases List.mem_cons.1 h with h | h
      · exact .inl (h ▸ List.mem_cons_self)
      · rcases ih h with h | h
        exacts [.inl (List.mem_cons_of_mem _ h), .inr h]

/-- Every entry of a written memory is an old one or the one written. -/
theorem Memory.mem_write (m : Memory) (a : Nat) (v : Byte) (c : Host.Cell)
    (h : c ∈ m.write a v) : c ∈ m ∨ (c = (a, v) ∧ v ≠ Memory.unlisted) := by
  simp only [Memory.write] at h
  split at h
  · exact .inl (List.mem_filter.1 h).1
  · next hv =>
    rcases Memory.mem_insert _ a v c h with h | h
    exacts [.inl (List.mem_filter.1 h).1, .inr ⟨h, hv⟩]

theorem Memory.insert_pairwise (m : Memory) (a : Nat) (v : Byte)
    (h : m.Pairwise fun x y => x.1 < y.1) (hne : ∀ c ∈ m, c.1 ≠ a) :
    (m.insert a v).Pairwise fun x y => x.1 < y.1 := by
  induction m with
  | nil => simp [Memory.insert]
  | cons d m ih =>
    obtain ⟨k, b⟩ := d
    have hp := List.pairwise_cons.1 h
    have hk : k ≠ a := hne (k, b) (by simp)
    simp only [Memory.insert]
    split
    · next hlt =>
      refine List.pairwise_cons.2 ⟨fun c hc => ?_, h⟩
      rcases List.mem_cons.1 hc with rfl | hc
      exacts [hlt, Nat.lt_trans hlt (hp.1 c hc)]
    · next hlt =>
      refine List.pairwise_cons.2 ⟨fun c hc => ?_, ih hp.2 fun c hc => hne c (List.mem_cons_of_mem _ hc)⟩
      rcases Memory.mem_insert m a v c hc with hc | rfl
      · exact hp.1 c hc
      · show k < a
        omega

/-- A write keeps the canonical form. -/
theorem Memory.write_wf (m : Memory) (a : Nat) (v : Byte) (h : m.wf) : (m.write a v).wf := by
  refine ⟨?_, fun c hc => ?_⟩
  · simp only [Memory.write]
    split
    · exact h.1.filter _
    · exact Memory.insert_pairwise _ a v (h.1.filter _) (Memory.fst_ne_of_mem_filter m a)
  · rcases Memory.mem_write m a v c hc with hc | ⟨rfl, hv⟩
    exacts [h.2 c hc, hv]

/-- Writing bytes keeps the canonical form. -/
theorem Memory.writeBytes_wf (bs : List Byte) (m : Memory) (a : Nat) (h : m.wf) :
    (m.writeBytes a bs).wf := by
  induction bs generalizing m a with
  | nil => exact h
  | cons b bs ih => exact ih _ _ (Memory.write_wf m a b h)

/-- Every entry after writing bytes is an old one or lies among the written addresses. -/
theorem Memory.mem_writeBytes (bs : List Byte) (m : Memory) (a : Nat) (c : Host.Cell)
    (h : c ∈ m.writeBytes a bs) : c ∈ m ∨ (a ≤ c.1 ∧ c.1 < a + bs.length) := by
  induction bs generalizing m a with
  | nil => exact .inl h
  | cons b bs ih =>
    rcases ih _ _ h with h | h
    · rcases Memory.mem_write m a b c h with h | ⟨rfl, _⟩
      · exact .inl h
      · exact .inr (by simp)
    · exact .inr (by simp only [List.length_cons]; omega)

/-- An address outside the written bytes reads as before. -/
theorem Memory.read_writeBytes_outside (bs : List Byte) (m : Memory) (a x : Nat)
    (hx : ¬ (a ≤ x ∧ x < a + bs.length)) : (m.writeBytes a bs).read x = m.read x := by
  induction bs generalizing m a with
  | nil => rfl
  | cons b bs ih =>
    simp only [List.length_cons] at hx
    simp only [Memory.writeBytes]
    rw [ih _ _ (by omega), Memory.read_write, if_neg (by omega)]

/-- A written byte is read back. -/
theorem Memory.read_writeBytes (bs : List Byte) (m : Memory) (a k : Nat) (hk : k < bs.length) :
    (m.writeBytes a bs).read (a + k) = bs[k] := by
  induction bs generalizing m a k with
  | nil => simp at hk
  | cons b bs ih =>
    simp only [Memory.writeBytes]
    cases k with
    | zero => rw [Memory.read_writeBytes_outside _ _ _ _ (by omega), Memory.read_write]; simp
    | succ k =>
      rw [show a + (k + 1) = a + 1 + k by omega, ih (m.write a b) (a + 1) k (by simpa using hk)]
      simp

/-- Byte k of a stored word (20_memory.md R33). -/
theorem Memory.read_writeWord (m : Memory) (a k : Nat) (v : Word) (hk : k < 8) :
    (m.writeBytes a (leBytes v)).read (a + k) = wordByte v k := by
  rw [Memory.read_writeBytes (leBytes v) m a k (by simpa using hk), getElem_leBytes v k hk]

/-- Byte k of the word at an address is the byte at that address plus k (R33). -/
theorem Memory.wordByte_readWord (m : Memory) (a k : Nat) (hk : k < 8) :
    wordByte (m.readWord a) k = m.read (a + k) := by
  rw [Memory.readWord, wordByte_leWord _ _ _ _ _ _ _ _ k hk]
  have : k = 0 ∨ k = 1 ∨ k = 2 ∨ k = 3 ∨ k = 4 ∨ k = 5 ∨ k = 6 ∨ k = 7 := by omega
  rcases this with rfl | rfl | rfl | rfl | rfl | rfl | rfl | rfl <;> rfl

/-- The word at an address is known from its eight bytes. -/
theorem Memory.readWord_eq (m : Memory) (a : Nat) (v : Word)
    (h : ∀ k, k < 8 → m.read (a + k) = wordByte v k) : m.readWord a = v := by
  have h0 := h 0 (by omega)
  rw [Nat.add_zero] at h0
  rw [Memory.readWord, h0, h 1 (by omega), h 2 (by omega), h 3 (by omega), h 4 (by omega),
    h 5 (by omega), h 6 (by omega), h 7 (by omega), leWord_wordBytes]

/-- A stored word is read back whole. -/
theorem Memory.readWord_writeWord (m : Memory) (a : Nat) (v : Word) :
    (m.writeBytes a (leBytes v)).readWord a = v :=
  Memory.readWord_eq _ _ _ fun k hk => Memory.read_writeWord m a k v hk

/-- A listed address of a canonical memory reads its entry. -/
theorem Memory.read_of_mem (m : Memory) (a : Nat) (b : Byte) (h : m.wf) (hc : (a, b) ∈ m) :
    m.read a = b := by
  induction m with
  | nil => simp at hc
  | cons d m ih =>
    obtain ⟨k, b'⟩ := d
    have hp := List.pairwise_cons.1 h.1
    rcases List.mem_cons.1 hc with hc | hc
    · simp only [Prod.mk.injEq] at hc
      simp [Memory.read, hc]
    · have : k < a := hp.1 _ hc
      simp only [Memory.read]
      rw [if_neg (by omega)]
      exact ih ⟨hp.2, fun c hc => h.2 c (List.mem_cons_of_mem _ hc)⟩ hc

/-- An address with no entry reads as an unlisted one, in any memory. -/
theorem Memory.read_of_not_mem (m : Memory) (a : Nat) (h : ∀ b, (a, b) ∉ m) :
    m.read a = Memory.unlisted := by
  induction m with
  | nil => rfl
  | cons d m ih =>
    obtain ⟨k, b⟩ := d
    simp only [Memory.read]
    rw [if_neg, ih]
    · exact fun b' hb' => h b' (List.mem_cons_of_mem _ hb')
    · rintro rfl
      exact h b (List.mem_cons_self)

/-- Two canonical memories that read the same are the same list. -/
theorem Memory.eq_of_read_eq (m n : Memory) (hm : m.wf) (hn : n.wf)
    (h : ∀ a, m.read a = n.read a) : m = n := by
  have sub (m n : Memory) (hm : m.wf) (hn : n.wf) (h : ∀ a, m.read a = n.read a) : m ⊆ n := by
    rintro ⟨a, b⟩ hc
    by_contra hnot
    have hb : n.read a = b := (h a).symm.trans (Memory.read_of_mem m a b hm hc)
    have hne : n.read a ≠ Memory.unlisted := hb ▸ hm.2 _ hc
    refine hne (Memory.read_of_not_mem n a fun b' hb' => hnot ?_)
    rwa [← hb, Memory.read_of_mem n a b' hn hb']
  have nodup (m : Memory) (hm : m.wf) : m.Nodup :=
    hm.1.imp fun {x y} hxy heq => by subst heq; exact Nat.lt_irrefl _ hxy
  have perm : m.Perm n := by
    rw [List.perm_ext_iff_of_nodup (nodup m hm) (nodup n hn)]
    exact fun c => ⟨fun hc => sub m n hm hn h hc, fun hc => sub n m hn hm (fun a => (h a).symm) hc⟩
  exact perm.eq_of_pairwise (fun x y _ _ hxy hyx => absurd (Nat.lt_trans hxy hyx) (Nat.lt_irrefl _))
    hm.1 hn.1

end Sys2Proof.Machine
end

