-- ==== Sys2Proof/Laws/State.lean ====
section
/-! SUPPORT. One lemma per field per update of the state, so that no proof unfolds a record update. -/

namespace Sys2Proof.Machine

variable (s : State) (r : Reg) (v : Word) (c : CC) (code : Stat) (a : Nat) (b : Byte) (cfg : Config)

@[simp] theorem State.setReg_cfg : (s.setReg r v).cfg = s.cfg := rfl
@[simp] theorem State.setReg_regs : (s.setReg r v).regs = s.regs.set r v := rfl
@[simp] theorem State.setReg_pc : (s.setReg r v).pc = s.pc := rfl
@[simp] theorem State.setReg_cc : (s.setReg r v).cc = s.cc := rfl
@[simp] theorem State.setReg_stat : (s.setReg r v).stat = s.stat := rfl
@[simp] theorem State.setReg_mem : (s.setReg r v).mem = s.mem := rfl
@[simp] theorem State.setReg_byte : (s.setReg r v).byte a = s.byte a := rfl

@[simp] theorem State.setPc_cfg : (s.setPc v).cfg = s.cfg := rfl
@[simp] theorem State.setPc_regs : (s.setPc v).regs = s.regs := rfl
@[simp] theorem State.setPc_pc : (s.setPc v).pc = v := rfl
@[simp] theorem State.setPc_cc : (s.setPc v).cc = s.cc := rfl
@[simp] theorem State.setPc_stat : (s.setPc v).stat = s.stat := rfl
@[simp] theorem State.setPc_mem : (s.setPc v).mem = s.mem := rfl
@[simp] theorem State.setPc_byte : (s.setPc v).byte a = s.byte a := rfl
@[simp] theorem State.setPc_reg : (s.setPc v).reg r = s.reg r := rfl

@[simp] theorem State.setCC_cfg : (s.setCC c).cfg = s.cfg := rfl
@[simp] theorem State.setCC_regs : (s.setCC c).regs = s.regs := rfl
@[simp] theorem State.setCC_pc : (s.setCC c).pc = s.pc := rfl
@[simp] theorem State.setCC_cc : (s.setCC c).cc = c := rfl
@[simp] theorem State.setCC_stat : (s.setCC c).stat = s.stat := rfl
@[simp] theorem State.setCC_mem : (s.setCC c).mem = s.mem := rfl
@[simp] theorem State.setCC_byte : (s.setCC c).byte a = s.byte a := rfl
@[simp] theorem State.setCC_reg : (s.setCC c).reg r = s.reg r := rfl

@[simp] theorem State.stop_cfg : (s.stop code).cfg = s.cfg := rfl
@[simp] theorem State.stop_regs : (s.stop code).regs = s.regs := rfl
@[simp] theorem State.stop_pc : (s.stop code).pc = s.pc := rfl
@[simp] theorem State.stop_cc : (s.stop code).cc = s.cc := rfl
@[simp] theorem State.stop_stat : (s.stop code).stat = code := rfl
@[simp] theorem State.stop_mem : (s.stop code).mem = s.mem := rfl
@[simp] theorem State.stop_byte : (s.stop code).byte a = s.byte a := rfl
@[simp] theorem State.stop_reg : (s.stop code).reg r = s.reg r := rfl

@[simp] theorem State.setByte_cfg : (s.setByte a b).cfg = s.cfg := rfl
@[simp] theorem State.setByte_regs : (s.setByte a b).regs = s.regs := rfl
@[simp] theorem State.setByte_pc : (s.setByte a b).pc = s.pc := rfl
@[simp] theorem State.setByte_cc : (s.setByte a b).cc = s.cc := rfl
@[simp] theorem State.setByte_stat : (s.setByte a b).stat = s.stat := rfl
@[simp] theorem State.setByte_mem : (s.setByte a b).mem = s.mem.write a b := rfl
@[simp] theorem State.setByte_reg : (s.setByte a b).reg r = s.reg r := rfl

@[simp] theorem State.resetOf_cfg : (State.resetOf cfg).cfg = cfg := rfl
@[simp] theorem State.resetOf_regs : (State.resetOf cfg).regs = RegFile.zero := rfl
@[simp] theorem State.resetOf_pc : (State.resetOf cfg).pc = cfg.resetPc := rfl
@[simp] theorem State.resetOf_cc :
    (State.resetOf cfg).cc = { zf := true, sf := false, of := false } := rfl
@[simp] theorem State.resetOf_stat : (State.resetOf cfg).stat = .aok := rfl
@[simp] theorem State.resetOf_mem : (State.resetOf cfg).mem = [] := rfl
@[simp] theorem State.resetOf_byte : (State.resetOf cfg).byte a = 0 := rfl
@[simp] theorem State.resetOf_reg : (State.resetOf cfg).reg r = 0 := by cases r <;> rfl

end Sys2Proof.Machine
end

