-- ==== Sys2Proof/Laws/Registers.lean ====
section
/-! SUPPORT. The register file: what a read gives after a write (10_state.md R12). -/

namespace Sys2Proof.Machine

theorem RegFile.get_rnone (f : RegFile) : f.get .rnone = 0 := rfl

theorem RegFile.set_rnone (f : RegFile) (v : Word) : f.set .rnone v = f := rfl

theorem RegFile.get_set_self (f : RegFile) (r : Reg) (v : Word) (h : r ≠ .rnone) :
    (f.set r v).get r = v := by
  cases r <;> first | rfl | exact absurd rfl h

theorem RegFile.get_set_of_ne (f : RegFile) (r r' : Reg) (v : Word) (h : r' ≠ r) :
    (f.set r v).get r' = f.get r' := by
  cases r <;> cases r' <;> first | rfl | exact absurd rfl h

/-- What every register reads after a write of any register. -/
theorem RegFile.get_set (f : RegFile) (r r' : Reg) (v : Word) :
    (f.set r v).get r' = if r' = r ∧ r ≠ .rnone then v else f.get r' := by
  by_cases h : r' = r
  · subst h
    by_cases hn : r' = .rnone
    · subst hn; rfl
    · simp [hn, RegFile.get_set_self]
  · simp [h, RegFile.get_set_of_ne]

/-- Two register files that read the same are the same. -/
theorem RegFile.eq_of_get_eq (f g : RegFile) (h : ∀ r, f.get r = g.get r) : f = g := by
  cases f
  cases g
  have := h .rax; have := h .rcx; have := h .rdx; have := h .rbx; have := h .rsp
  have := h .rbp; have := h .rsi; have := h .rdi; have := h .r8; have := h .r9
  have := h .r10; have := h .r11; have := h .r12; have := h .r13; have := h .r14
  simp_all [RegFile.get]

theorem State.reg_rnone (s : State) : s.reg .rnone = 0 := rfl

/-- What every register of the machine reads after a write of any register. -/
theorem State.setReg_reg (s : State) (r r' : Reg) (v : Word) :
    (s.setReg r v).reg r' = if r' = r ∧ r ≠ .rnone then v else s.reg r' :=
  RegFile.get_set s.regs r r' v

/-- A written register reads what was written, or 0 if it is the sentinel. -/
theorem State.setReg_reg_self (s : State) (r : Reg) (v : Word) :
    (s.setReg r v).reg r = if r = .rnone then 0 else v := by
  by_cases h : r = .rnone
  · subst h; rfl
  · simp [State.setReg_reg, h]

theorem State.setReg_reg_of_ne (s : State) (r r' : Reg) (v : Word) (h : r' ≠ r) :
    (s.setReg r v).reg r' = s.reg r' :=
  RegFile.get_set_of_ne s.regs r r' v h

end Sys2Proof.Machine
end

