-- ==== Sys2Proof/Laws/Ops.lean ====
section
/-! SUPPORT. The storage contract and the memory stage: everything each shared operation can do. -/

namespace Sys2Proof.Machine

theorem byteInBounds_iff (cfg : Config) (a : Nat) : byteInBounds cfg a = true ↔ a < cfg.memSize := by
  simp [byteInBounds]

theorem wordInBounds_iff (cfg : Config) (a : Word) :
    wordInBounds cfg a = true ↔ a.toNat ≤ cfg.memSize - 8 := by
  simp [wordInBounds]

/-- A valid word lies in Storage whole (20_memory.md R32). -/
theorem lt_memSize_of_wordInBounds (cfg : Config) (a : Word) (k : Nat)
    (h : a.toNat ≤ cfg.memSize - 8) (hk : k < 8) : a.toNat + k < cfg.memSize := by
  have := cfg.memSize_ge
  omega

/-- An address at or above 2^63 is never valid, since MEM_SIZE is at most 2^63 (20_memory.md R40). -/
theorem wordInBounds_high (cfg : Config) (a : Word) (h : 2 ^ 63 ≤ a.toNat) :
    wordInBounds cfg a = false := by
  have := cfg.memSize_le
  have := cfg.memSize_ge
  simp only [wordInBounds, decide_eq_false_iff_not]
  omega

theorem State.readByte_of_lt (s : State) (a : Nat) (h : a < s.cfg.memSize) :
    s.readByte a = some (s.byte a) := by
  simp [State.readByte, byteInBounds, h, State.byte]

theorem State.readByte_of_ge (s : State) (a : Nat) (h : s.cfg.memSize ≤ a) : s.readByte a = none := by
  simp [State.readByte, byteInBounds, Nat.not_lt.2 h]

theorem State.readWord_ok (s : State) (a : Word) (h : a.toNat ≤ s.cfg.memSize - 8) :
    s.readWord a = some (s.mem.readWord a.toNat) := by
  simp [State.readWord, wordInBounds, h]

theorem State.readWord_bad (s : State) (a : Word) (h : ¬ a.toNat ≤ s.cfg.memSize - 8) :
    s.readWord a = none := by
  simp [State.readWord, wordInBounds, h]

theorem State.writeWord_ok (s : State) (a v : Word) (h : a.toNat ≤ s.cfg.memSize - 8) :
    s.writeWord a v = some { s with mem := s.mem.writeBytes a.toNat (leBytes v) } := by
  simp [State.writeWord, wordInBounds, h]

theorem State.writeWord_bad (s : State) (a v : Word) (h : ¬ a.toNat ≤ s.cfg.memSize - 8) :
    s.writeWord a v = none := by
  simp [State.writeWord, wordInBounds, h]

/-- A load goes on with the word at the address, or raises ADR. -/
theorem loadThen_cases (s : State) (a : Word) (go : Word → State) :
    (a.toNat ≤ s.cfg.memSize - 8 ∧ loadThen s a go = .next (go (s.mem.readWord a.toNat))) ∨
    (¬ a.toNat ≤ s.cfg.memSize - 8 ∧ loadThen s a go = .next (s.stop .adr)) := by
  by_cases h : a.toNat ≤ s.cfg.memSize - 8
  · exact .inl ⟨h, by simp [loadThen, State.readWord_ok s a h]⟩
  · exact .inr ⟨h, by simp [loadThen, State.readWord_bad s a h, State.raiseAdr]⟩

/-- A store goes on with the word written at the address, or raises ADR with nothing written. -/
theorem storeThen_cases (s : State) (a v : Word) (go : State → State) :
    (a.toNat ≤ s.cfg.memSize - 8 ∧
      storeThen s a v go = .next (go { s with mem := s.mem.writeBytes a.toNat (leBytes v) })) ∨
    (¬ a.toNat ≤ s.cfg.memSize - 8 ∧ storeThen s a v go = .next (s.stop .adr)) := by
  by_cases h : a.toNat ≤ s.cfg.memSize - 8
  · exact .inl ⟨h, by simp [storeThen, State.writeWord_ok s a v h]⟩
  · exact .inr ⟨h, by simp [storeThen, State.writeWord_bad s a v h, State.raiseAdr]⟩

end Sys2Proof.Machine
end

