-- ==== Sys2Proof/Laws/Exec.lean ====
section
/-! SUPPORT. What the meanings can do: each shared form once, and what every instruction has in
common. -/

namespace Sys2Proof.Machine

theorem alu_add (a b : Word) : alu .add a b = b + a := rfl

@[simp] theorem alu_add_zero (a : Word) : alu .add a 0#64 = a := by simp [alu]

/-- The address of a push is the ALU's sum with the constant -8 (40_step_datapath.md R81). -/
theorem State.pushAddr_eq_alu (s : State) :
    s.pushAddr = alu .add 0xFFFFFFFFFFFFFFF8 (s.reg .rsp) := by
  rw [State.pushAddr, alu_add, BitVec.sub_eq_add_neg]
  rfl

theorem State.popSp_eq (s : State) : s.popSp = s.reg .rsp + 8 := rfl

/-- A register move: the copy if the condition holds, and pc + 2 either way. -/
theorem registerMove_eq (c : Cond) (rA rB : Reg) (s : State) :
    registerMove c rA rB s =
      .next ((if c.holds s.cc then s.setReg rB (s.reg rA) else s).setPc (s.pc + 2)) := by
  simp [registerMove, State.valP]

theorem arithLogic_eq (op : AluOp) (rA rB : Reg) (s : State) :
    arithLogic op rA rB s =
      .next (((s.setCC (aluFlags op (s.reg rA) (s.reg rB))).setReg rB
        (alu op (s.reg rA) (s.reg rB))).setPc (s.pc + 2)) := rfl

theorem jumpIf_eq (c : Cond) (valC : Word) (s : State) :
    jumpIf c valC s = .next (s.setPc (if c.holds s.cc then valC else s.pc + 9)) := rfl

/-- What completing leaves, for every instruction: the status and the parameters as they were. -/
def Kept (s t : State) : Prop := t.stat = s.stat ∧ t.cfg = s.cfg

/-- Everything exec can answer: a state that has kept status and parameters, or a stop. There is no fault
and no refusal. -/
theorem exec_cases (i : Instr) (s : State) :
    ∃ t, exec i s = .next t ∧ (Kept s t ∨ t = s.stop .hlt ∨ t = s.stop .adr) := by
  have load (a : Word) (go : Word → State) (h : ∀ v, Kept s (go v)) :
      ∃ t, loadThen s a go = .next t ∧ (Kept s t ∨ t = s.stop .hlt ∨ t = s.stop .adr) := by
    rcases loadThen_cases s a go with ⟨-, e⟩ | ⟨-, e⟩
    exacts [⟨_, e, .inl (h _)⟩, ⟨_, e, .inr (.inr rfl)⟩]
  have store (a v : Word) (go : State → State) (h : ∀ m, Kept s (go { s with mem := m })) :
      ∃ t, storeThen s a v go = .next t ∧ (Kept s t ∨ t = s.stop .hlt ∨ t = s.stop .adr) := by
    rcases storeThen_cases s a v go with ⟨-, e⟩ | ⟨-, e⟩
    exacts [⟨_, e, .inl (h _)⟩, ⟨_, e, .inr (.inr rfl)⟩]
  have move (c : Cond) (rA rB : Reg) :
      ∃ t, registerMove c rA rB s = .next t ∧ (Kept s t ∨ t = s.stop .hlt ∨ t = s.stop .adr) := by
    refine ⟨_, registerMove_eq c rA rB s, .inl ?_⟩
    split <;> exact ⟨rfl, rfl⟩
  have arith (op : AluOp) (rA rB : Reg) :
      ∃ t, arithLogic op rA rB s = .next t ∧ (Kept s t ∨ t = s.stop .hlt ∨ t = s.stop .adr) :=
    ⟨_, rfl, .inl ⟨rfl, rfl⟩⟩
  have jump (c : Cond) (D : Word) :
      ∃ t, jumpIf c D s = .next t ∧ (Kept s t ∨ t = s.stop .hlt ∨ t = s.stop .adr) :=
    ⟨_, rfl, .inl ⟨rfl, rfl⟩⟩
  cases i with
  | halt => exact ⟨_, rfl, .inr (.inl rfl)⟩
  | nop => exact ⟨_, rfl, .inl ⟨rfl, rfl⟩⟩
  | rrmovq rA rB => exact move .always rA rB
  | cmovle rA rB => exact move .le rA rB
  | cmovl rA rB => exact move .l rA rB
  | cmove rA rB => exact move .e rA rB
  | cmovne rA rB => exact move .ne rA rB
  | cmovge rA rB => exact move .ge rA rB
  | cmovg rA rB => exact move .g rA rB
  | irmovq => exact ⟨_, rfl, .inl ⟨rfl, rfl⟩⟩
  | rmmovq => simp only [exec, execRmmovq]; exact store _ _ _ fun _ => ⟨rfl, rfl⟩
  | mrmovq => simp only [exec, execMrmovq]; exact load _ _ fun _ => ⟨rfl, rfl⟩
  | addq rA rB => exact arith .add rA rB
  | subq rA rB => exact arith .sub rA rB
  | andq rA rB => exact arith .and rA rB
  | xorq rA rB => exact arith .xor rA rB
  | jmp D => exact jump .always D
  | jle D => exact jump .le D
  | jl D => exact jump .l D
  | je D => exact jump .e D
  | jne D => exact jump .ne D
  | jge D => exact jump .ge D
  | jg D => exact jump .g D
  | call => simp only [exec, execCall]; exact store _ _ _ fun _ => by simp [Kept]
  | ret => simp only [exec, execRet]; exact load _ _ fun _ => by simp [Kept]
  | pushq => simp only [exec, execPushq]; exact store _ _ _ fun _ => by simp [Kept]
  | popq => simp only [exec, execPopq]; exact load _ _ fun _ => by simp [Kept]

end Sys2Proof.Machine
end

