-- ==== Sys2Proof/Laws/Fetch.lean ====
section
/-! SUPPORT. The bytes of a fetch, and everything one step can do. -/

namespace Sys2Proof.Machine

theorem State.length_bytesFrom (s : State) (n a : Nat) :
    (s.bytesFrom n a).length = min n (s.cfg.memSize - a) := by
  induction n generalizing a with
  | zero => simp [State.bytesFrom]
  | succ n ih =>
    by_cases h : a < s.cfg.memSize
    · simp only [State.bytesFrom, State.readByte_of_lt s a h, List.length_cons, ih]
      omega
    · simp only [State.bytesFrom, State.readByte_of_ge s a (by omega), List.length_nil]
      omega

theorem State.getElem_bytesFrom (s : State) (n a k : Nat) (h : k < (s.bytesFrom n a).length) :
    (s.bytesFrom n a)[k] = s.byte (a + k) := by
  induction n generalizing a k with
  | zero => simp [State.bytesFrom] at h
  | succ n ih =>
    by_cases ha : a < s.cfg.memSize
    · simp only [State.bytesFrom, State.readByte_of_lt s a ha] at h ⊢
      cases k with
      | zero => simp
      | succ k =>
        simp only [List.getElem_cons_succ]
        rw [ih (a + 1) k (by simpa using h), show a + 1 + k = a + (k + 1) by omega]
    · simp [State.bytesFrom, State.readByte_of_ge s a (by omega)] at h

/-- How many bytes a fetch can read: ten, or those up to the end of Storage (40_step_datapath.md R77). -/
theorem State.length_fetchBytes (s : State) :
    s.fetchBytes.length = min 10 (s.cfg.memSize - s.pc.toNat) := s.length_bytesFrom 10 _

theorem State.getElem_fetchBytes (s : State) (k : Nat) (h : k < s.fetchBytes.length) :
    s.fetchBytes[k] = s.byte (s.pc.toNat + k) := s.getElem_bytesFrom _ _ k h

/-- Bytes that stand at pc, inside Storage and no longer than an instruction, are the front of the
fetch. -/
theorem State.fetchBytes_eq_append (s : State) (bytes : List Byte) (hlen : bytes.length ≤ 10)
    (hin : s.pc.toNat + bytes.length ≤ s.cfg.memSize)
    (h : ∀ k, (hk : k < bytes.length) → s.byte (s.pc.toNat + k) = bytes[k]) :
    ∃ rest, s.fetchBytes = bytes ++ rest := by
  refine ⟨s.fetchBytes.drop bytes.length, List.ext_getElem ?_ fun k hk hk' => ?_⟩
  · rw [List.length_append, List.length_drop, s.length_fetchBytes]
    omega
  · rw [s.getElem_fetchBytes k hk]
    by_cases hb : k < bytes.length
    · rw [List.getElem_append_left hb, h k hb]
    · rw [List.getElem_append_right (by omega), List.getElem_drop, s.getElem_fetchBytes]
      congr 1
      omega

/-- A stopped machine does not step (R70). -/
theorem step_of_stopped (s : State) (h : s.stat ≠ .aok) : step s = .next s := by
  unfold step
  cases hs : s.stat <;> first | rfl | exact absurd hs h

/-- A running machine steps by what its fetched bytes decode to. -/
theorem step_of_running (s : State) (h : s.stat = .aok) :
    step s = match decode s.cfg s.fetchBytes with
      | .ok (i, _) => exec i s
      | .error e => .next (s.stop (stopOf e)) := by
  obtain ⟨_, _, _, _, stat, _⟩ := s
  cases (show stat = .aok from h)
  rfl

/-- Everything a step can do: nothing, a stop of fetch or decode, or the decoded instruction. -/
theorem step_cases (s : State) :
    (s.stat ≠ .aok ∧ step s = .next s) ∨
    (s.stat = .aok ∧ ∃ e, decode s.cfg s.fetchBytes = .error e ∧ step s = .next (s.stop (stopOf e))) ∨
    (s.stat = .aok ∧ ∃ i rest, decode s.cfg s.fetchBytes = .ok (i, rest) ∧ step s = exec i s) := by
  by_cases h : s.stat = .aok
  · cases hd : decode s.cfg s.fetchBytes with
    | error e => exact .inr (.inl ⟨h, e, rfl, by rw [step_of_running s h, hd]⟩)
    | ok x => exact .inr (.inr ⟨h, x.1, x.2, rfl, by rw [step_of_running s h, hd]⟩)
  · exact .inl ⟨h, step_of_stopped s h⟩

theorem stopOf_ne_aok (e : DecodeError) : stopOf e ≠ .aok := by
  cases e <;> simp [stopOf]

end Sys2Proof.Machine
end

