-- ==== Sys2Proof/Laws/PerInstr.lean ====
section
/-! SUPPORT. The family EncodeShape: what every instruction's encoding looks like from its constructor
alone (30_encoding.md R50, R55). -/

namespace Sys2Proof.Laws.EncodeShape

/-- The encoding has the instruction's length, which is 1, 2, 9 or 10, and its first byte selects a class
of that length. -/
def Statement (i : Instr) : Prop :=
  (encode i).length = i.length ∧ (i.length = 1 ∨ i.length = 2 ∨ i.length = 9 ∨ i.length = 10) ∧
    ∃ c b0 tail, encode i = b0 :: tail ∧ InstrClass.ofIcode (highNibble b0) = some c ∧ c.length = i.length

theorem halt (f : Nibble) : Statement (.halt f) :=
  ⟨rfl, by simp [Instr.length], .halt, _, _, rfl, by simp, rfl⟩

theorem nop (f : Nibble) : Statement (.nop f) :=
  ⟨rfl, by simp [Instr.length], .nop, _, _, rfl, by simp, rfl⟩

theorem rrmovq (rA rB : Reg) : Statement (.rrmovq rA rB) :=
  ⟨rfl, by simp [Instr.length], .move, _, _, rfl, by simp, rfl⟩

theorem cmovle (rA rB : Reg) : Statement (.cmovle rA rB) :=
  ⟨rfl, by simp [Instr.length], .move, _, _, rfl, by simp, rfl⟩

theorem cmovl (rA rB : Reg) : Statement (.cmovl rA rB) :=
  ⟨rfl, by simp [Instr.length], .move, _, _, rfl, by simp, rfl⟩

theorem cmove (rA rB : Reg) : Statement (.cmove rA rB) :=
  ⟨rfl, by simp [Instr.length], .move, _, _, rfl, by simp, rfl⟩

theorem cmovne (rA rB : Reg) : Statement (.cmovne rA rB) :=
  ⟨rfl, by simp [Instr.length], .move, _, _, rfl, by simp, rfl⟩

theorem cmovge (rA rB : Reg) : Statement (.cmovge rA rB) :=
  ⟨rfl, by simp [Instr.length], .move, _, _, rfl, by simp, rfl⟩

theorem cmovg (rA rB : Reg) : Statement (.cmovg rA rB) :=
  ⟨rfl, by simp [Instr.length], .move, _, _, rfl, by simp, rfl⟩

theorem irmovq (f : Nibble) (rA rB : Reg) (D : Word) : Statement (.irmovq f rA rB D) :=
  ⟨rfl, by simp [Instr.length], .irmovq, _, _, rfl, by simp, rfl⟩

theorem rmmovq (f : Nibble) (rA rB : Reg) (D : Word) : Statement (.rmmovq f rA rB D) :=
  ⟨rfl, by simp [Instr.length], .rmmovq, _, _, rfl, by simp, rfl⟩

theorem mrmovq (f : Nibble) (rA rB : Reg) (D : Word) : Statement (.mrmovq f rA rB D) :=
  ⟨rfl, by simp [Instr.length], .mrmovq, _, _, rfl, by simp, rfl⟩

theorem addq (rA rB : Reg) : Statement (.addq rA rB) :=
  ⟨rfl, by simp [Instr.length], .opq, _, _, rfl, by simp, rfl⟩

theorem subq (rA rB : Reg) : Statement (.subq rA rB) :=
  ⟨rfl, by simp [Instr.length], .opq, _, _, rfl, by simp, rfl⟩

theorem andq (rA rB : Reg) : Statement (.andq rA rB) :=
  ⟨rfl, by simp [Instr.length], .opq, _, _, rfl, by simp, rfl⟩

theorem xorq (rA rB : Reg) : Statement (.xorq rA rB) :=
  ⟨rfl, by simp [Instr.length], .opq, _, _, rfl, by simp, rfl⟩

theorem jmp (D : Word) : Statement (.jmp D) :=
  ⟨rfl, by simp [Instr.length], .jump, _, _, rfl, by simp, rfl⟩

theorem jle (D : Word) : Statement (.jle D) :=
  ⟨rfl, by simp [Instr.length], .jump, _, _, rfl, by simp, rfl⟩

theorem jl (D : Word) : Statement (.jl D) :=
  ⟨rfl, by simp [Instr.length], .jump, _, _, rfl, by simp, rfl⟩

theorem je (D : Word) : Statement (.je D) :=
  ⟨rfl, by simp [Instr.length], .jump, _, _, rfl, by simp, rfl⟩

theorem jne (D : Word) : Statement (.jne D) :=
  ⟨rfl, by simp [Instr.length], .jump, _, _, rfl, by simp, rfl⟩

theorem jge (D : Word) : Statement (.jge D) :=
  ⟨rfl, by simp [Instr.length], .jump, _, _, rfl, by simp, rfl⟩

theorem jg (D : Word) : Statement (.jg D) :=
  ⟨rfl, by simp [Instr.length], .jump, _, _, rfl, by simp, rfl⟩

theorem call (f : Nibble) (D : Word) : Statement (.call f D) :=
  ⟨rfl, by simp [Instr.length], .call, _, _, rfl, by simp, rfl⟩

theorem ret (f : Nibble) : Statement (.ret f) :=
  ⟨rfl, by simp [Instr.length], .ret, _, _, rfl, by simp, rfl⟩

theorem pushq (f : Nibble) (rA rB : Reg) : Statement (.pushq f rA rB) :=
  ⟨rfl, by simp [Instr.length], .pushq, _, _, rfl, by simp, rfl⟩

theorem popq (f : Nibble) (rA rB : Reg) : Statement (.popq f rA rB) :=
  ⟨rfl, by simp [Instr.length], .popq, _, _, rfl, by simp, rfl⟩

end Sys2Proof.Laws.EncodeShape
end

