-- ==== Sys2Proof/Tests/Slice0.lean ====
section
/-! SUPPORT. Tests: expected values from 30_encoding.md and 95_test_vectors.md (the vector's section or
number stands in each docstring); and, for every obligation with hypotheses, a witness that meets them. -/

open Sys2Proof Sys2Proof.Machine

namespace Sys2Proof.Tests

/-! ## Helpers -/

/-- A machine that checks unused function codes (00_scope.md R7). -/
def strict : Config := { Config.default with ignoreUnusedIfun := false }

/-- The reset state with pc moved, code placed there, and registers set. -/
def codeIn (cfg : Config) (pc : Nat) (bytes : List Byte) (regs : List (Reg × Word)) : State :=
  setRegisters (({ State.resetOf cfg with pc := BitVec.ofNat 64 pc } : State).placeBytes pc bytes) regs

/-- The same on the default machine. -/
def code (pc : Nat) (bytes : List Byte) (regs : List (Reg × Word)) : State :=
  codeIn Config.default pc bytes regs

/-- The outcome is a next state with the property. -/
def answers (r : Result) (p : State → Bool) : Bool :=
  match r with
  | .next t => p t
  | .fault _ => false
  | .refused _ => false

/-- One step leads to a state with the property. -/
def stepTo (s : State) (p : State → Bool) : Bool := answers (step s) p

/-- One step changes the status to the code and nothing else. -/
def stopsWith (s : State) (code : Stat) : Bool := stepTo s fun t => t == { s with stat := code }

/-- 2^63 - 1, -2^63 and -1, as 95_test_vectors.md writes them. -/
def intMax : Word := 0x7fffffffffffffff
def intMin : Word := 0x8000000000000000
def minusOne : Word := 0xffffffffffffffff

/-! ## WellFormed: a term each check refuses, and the same term on a machine without the check -/

theorem test_wf_refuses_unused_ifun :
    [Instr.nop 1, .irmovq 1 .rnone .rax 0, .rmmovq 1 .rax .rbx 0, .mrmovq 1 .rax .rbx 0, .call 1 0,
      .ret 1, .pushq 1 .rax .rnone, .popq 15 .rax .rnone].all (fun i =>
        !i.wf strict && i.wf Config.default) = true := by decide

theorem test_wf_takes_halt_with_any_ifun :
    [Instr.halt 0, .halt 1, .halt 15].all (fun i => i.wf strict) = true := by decide

/-! ## Decode: every constructor, from words written out from 30_encoding.md R54 to R57 -/

theorem test_decode_halt_nop_ret :
    decode Config.default [0x00] = .ok (.halt 0, []) ∧ decode Config.default [0x0f] = .ok (.halt 15, []) ∧
    decode strict [0x0f] = .ok (.halt 15, []) ∧
    decode Config.default [0x10] = .ok (.nop 0, []) ∧ decode Config.default [0x1f] = .ok (.nop 15, []) ∧
    decode Config.default [0x90, 0x12] = .ok (.ret 0, [0x12]) := by decide

theorem test_decode_moves :
    decode Config.default [0x20, 0x01] = .ok (.rrmovq .rax .rcx, []) ∧
    decode Config.default [0x21, 0x23] = .ok (.cmovle .rdx .rbx, []) ∧
    decode Config.default [0x22, 0x45] = .ok (.cmovl .rsp .rbp, []) ∧
    decode Config.default [0x23, 0x67] = .ok (.cmove .rsi .rdi, []) ∧
    decode Config.default [0x24, 0x89] = .ok (.cmovne .r8 .r9, []) ∧
    decode Config.default [0x25, 0xab] = .ok (.cmovge .r10 .r11, []) ∧
    decode Config.default [0x26, 0xcd] = .ok (.cmovg .r12 .r13, []) ∧
    decode Config.default [0x20, 0xef] = .ok (.rrmovq .r14 .rnone, []) := by decide

/-- S5, and programs 2 and 5. -/
theorem test_decode_constants :
    decode Config.default [0x30, 0xf2, 0x0a, 0, 0, 0, 0, 0, 0, 0] = .ok (.irmovq 0 .rnone .rdx 10, []) ∧
    decode Config.default [0x40, 0x03, 0xef, 0xcd, 0xab, 0x89, 0x67, 0x45, 0x23, 0x01] =
      .ok (.rmmovq 0 .rax .rbx 0x0123456789abcdef, []) ∧
    decode Config.default [0x50, 0x63, 8, 0, 0, 0, 0, 0, 0, 0, 0x90] =
      .ok (.mrmovq 0 .rsi .rbx 8, [0x90]) ∧
    decode Config.default [0x80, 0x40, 0, 0, 0, 0, 0, 0, 0x80] = .ok (.call 0 0x8000000000000040, []) := by
  decide

theorem test_decode_arith_logic :
    decode Config.default [0x60, 0x10] = .ok (.addq .rcx .rax, []) ∧
    decode Config.default [0x61, 0x21] = .ok (.subq .rdx .rcx, []) ∧
    decode Config.default [0x62, 0x9f] = .ok (.andq .r9 .rnone, []) ∧
    decode Config.default [0x63, 0x00] = .ok (.xorq .rax .rax, []) := by decide

theorem test_decode_jumps :
    decode Config.default [0x70, 0x90, 0, 0, 0, 0, 0, 0, 0] = .ok (.jmp 0x90, []) ∧
    decode Config.default [0x71, 0x40, 0, 0, 0, 0, 0, 0, 0] = .ok (.jle 0x40, []) ∧
    decode Config.default [0x72, 0x30, 0, 0, 0, 0, 0, 0, 0] = .ok (.jl 0x30, []) ∧
    decode Config.default [0x73, 0, 2, 0, 0, 0, 0, 0, 0] = .ok (.je 0x200, []) ∧
    decode Config.default [0x74, 0x1e, 0, 0, 0, 0, 0, 0, 0] = .ok (.jne 0x1e, []) ∧
    decode Config.default [0x75, 0xff, 0xff, 0xff, 0xff, 0xff, 0xff, 0xff, 0xff] = .ok (.jge minusOne, []) ∧
    decode Config.default [0x76, 0, 1, 0, 0, 0, 0, 0, 0] = .ok (.jg 0x100, []) := by decide

theorem test_decode_stack :
    decode Config.default [0xa0, 0x6f] = .ok (.pushq 0 .rsi .rnone, []) ∧
    decode Config.default [0xb0, 0x7f] = .ok (.popq 0 .rdi .rnone, []) ∧
    decode strict [0xb0, 0x72] = .ok (.popq 0 .rdi .rdx, []) := by decide

/-- Section 2.1: illegal classes and function codes, and unused ones where they are checked. -/
theorem test_decode_rejects :
    decode Config.default [0xc0] = .error (.noSuchClass 0xc) ∧
    decode Config.default [0xff] = .error (.noSuchClass 0xf) ∧
    decode Config.default [0x27, 0x01] = .error (.noSuchCondition 7) ∧
    decode Config.default [0x64, 0x03] = .error (.noSuchAluOp 4) ∧
    decode Config.default [0x77, 0, 1, 0, 0, 0, 0, 0, 0] = .error (.noSuchCondition 7) ∧
    decode Config.default [0x27] = .error .truncated ∧
    decode strict [0xa1, 0x0f] = .error (.unusedIfunSet 1) ∧
    decode strict [0xa1] = .error .truncated := by decide

/-- The host's numbering: the first byte is the lowest. -/
theorem test_decode_table_word :
    decodeTableWord 16 0x2161 = some (.subq .rdx .rcx) ∧ decodeTableWord 8 0x70 = some (.jmp 0) ∧
    decodeTableWord 8 0xc0 = none := by decide

/-! ## Steps -/

/-- S1, S2, section 2.4: halt at 0 and at the last address. -/
theorem test_halt :
    stopsWith State.reset .hlt = true ∧ stopsWith (code 0x1fff [0x00] []) .hlt = true := by decide

/-- S3 and section 2.4. -/
theorem test_nop :
    stepTo (code 0x1fff [0x10] [(.rax, 7)])
      (fun t => t == { code 0x1fff [0x10] [(.rax, 7)] with pc := 0x2000 }) = true := by decide

/-- S4. -/
theorem test_rrmovq :
    stepTo (code 1 [0x20, 0x01] [(.rax, 7)])
      (fun t => t.reg .rcx == 7 && t.reg .rax == 7 && t.pc == 3 && t.cc == ⟨true, false, false⟩) = true := by
  decide

/-- Section 2.6: the sentinel as source, and as destination. -/
theorem test_rrmovq_sentinel :
    stepTo (code 0 [0x20, 0xf1] [(.rcx, 9)]) (fun t => t.reg .rcx == 0) = true ∧
    stepTo (code 0 [0x20, 0x0f] [(.rax, 9)])
      (fun t => t == { code 0 [0x20, 0x0f] [(.rax, 9)] with pc := 2 }) = true := by decide

/-- The table of section 2.3: a row for each (ZF, SF, OF), a column for each function code. -/
def conditionTable : List (CC × List Bool) :=
  [(⟨false, false, false⟩, [true, false, false, false, true, true, true]),
   (⟨false, false, true⟩, [true, true, true, false, true, false, false]),
   (⟨false, true, false⟩, [true, true, true, false, true, false, false]),
   (⟨false, true, true⟩, [true, false, false, false, true, true, true]),
   (⟨true, false, false⟩, [true, true, false, true, false, true, false]),
   (⟨true, false, true⟩, [true, true, true, true, false, false, false]),
   (⟨true, true, false⟩, [true, true, true, true, false, false, false]),
   (⟨true, true, true⟩, [true, true, false, true, false, true, false])]

/-- Section 2.3, the 56 moves. -/
theorem test_conditional_moves :
    conditionTable.all (fun row => (List.range 7).all fun f =>
      stepTo { code 0 [0x20 + BitVec.ofNat 8 f, 0x01] [(.rax, 5)] with cc := row.1 } fun t =>
        t.reg .rcx == (if row.2[f]! then 5 else 0) && t.pc == 2 && t.cc == row.1) = true := by decide

/-- Section 2.3, the 56 jumps. -/
theorem test_jumps :
    conditionTable.all (fun row => (List.range 7).all fun f =>
      stepTo { code 0 [0x70 + BitVec.ofNat 8 f, 0, 1, 0, 0, 0, 0, 0, 0] [] with cc := row.1 } fun t =>
        t.pc == (if row.2[f]! then 0x100 else 9) && t.cc == row.1) = true := by decide

/-- Section 2.3: function codes that select no condition. -/
theorem test_invalid_conditions :
    stopsWith (code 0 [0x27, 0x01] [(.rax, 5)]) .ins = true ∧
    stopsWith (code 0 [0x2f, 0x01] [(.rax, 5)]) .ins = true ∧
    stopsWith (code 0 [0x7f, 0, 1, 0, 0, 0, 0, 0, 0] []) .ins = true := by decide

/-- S5 and section 2.6. -/
theorem test_irmovq :
    stepTo (code 0 [0x30, 0xf2, 0x0a, 0, 0, 0, 0, 0, 0, 0] [])
      (fun t => t.reg .rdx == 10 && t.pc == 10 && t.cc == ⟨true, false, false⟩) = true ∧
    stepTo (code 0 [0x30, 0xff, 1, 0, 0, 0, 0, 0, 0, 0] [])
      (fun t => t.getAll == State.reset.getAll && t.pc == 10) = true := by decide

/-- S6, section 2.5: byte order, misalignment, and the address wrapping to 0. -/
theorem test_rmmovq :
    stepTo (code 0 [0x40, 0x03, 8, 0, 0, 0, 0, 0, 0, 0] [(.rbx, 0x100), (.rax, 0x0123456789abcdef)])
      (fun t => (List.range 8).map (fun k => t.byte (0x108 + k)) ==
        [0xef, 0xcd, 0xab, 0x89, 0x67, 0x45, 0x23, 0x01] && t.pc == 10) = true ∧
    stepTo (code 0 [0x40, 0x03, 0xf0, 0xff, 0xff, 0xff, 0xff, 0xff, 0xff, 0xff]
        [(.rbx, 0x10), (.rax, 0x1122334455667788)])
      (fun t => t.readWord 0 == some 0x1122334455667788) = true := by decide

/-- Section 2.5: the last word, and one byte past it. -/
theorem test_rmmovq_bounds :
    stepTo (code 0 [0x40, 0x03, 0, 0, 0, 0, 0, 0, 0, 0] [(.rbx, 0x1ff8), (.rax, 0x1122334455667788)])
      (fun t => t.stat == .aok && t.byte 0x1ff8 == 0x88 && t.byte 0x1fff == 0x11) = true ∧
    stopsWith (code 0 [0x40, 0x03, 0, 0, 0, 0, 0, 0, 0, 0] [(.rbx, 0x1ff9), (.rax, 1)]) .adr = true ∧
    stopsWith (code 0 [0x40, 0x03, 0, 0, 0, 0, 0, 0, 0, 0] [(.rbx, minusOne), (.rax, 1)]) .adr = true := by
  decide

/-- Section 2.5: the program's own bytes, read as a word. -/
theorem test_mrmovq :
    stepTo (code 0 [0x50, 0x03, 0xf8, 0xff, 0xff, 0xff, 0xff, 0xff, 0xff, 0xff] [(.rbx, 0x10)])
      (fun t => t.reg .rax == 0xffff && t.pc == 10) = true ∧
    stopsWith (code 0 [0x50, 0x03, 0, 0, 0, 0, 0, 0, 0, 0] [(.rbx, 0x1ff9)]) .adr = true := by decide

/-- Section 2.2: operands A (%rax) and B (%rbx), result, and CC. -/
def opTable (op : Byte) (rows : List (Word × Word × Word × CC)) : Bool :=
  rows.all fun (a, b, r, cc) =>
    stepTo (code 0 [op, 0x03] [(.rax, a), (.rbx, b)]) fun t =>
      t.reg .rbx == r && t.reg .rax == a && t.cc == cc && t.pc == 2

theorem test_addq :
    opTable 0x60 [(5, 10, 15, ⟨false, false, false⟩), (1, intMax, intMin, ⟨false, true, true⟩),
      (intMin, intMin, 0, ⟨true, false, true⟩), (1, minusOne, 0, ⟨true, false, false⟩),
      (minusOne, minusOne, 0xfffffffffffffffe, ⟨false, true, false⟩)] = true := by decide

theorem test_subq :
    opTable 0x61 [(1, 3, 2, ⟨false, false, false⟩), (intMin, 0, intMin, ⟨false, true, true⟩),
      (1, intMin, intMax, ⟨false, false, true⟩), (intMax, minusOne, intMin, ⟨false, true, false⟩),
      (0, intMin, intMin, ⟨false, true, false⟩)] = true := by decide

theorem test_andq :
    opTable 0x62 [(0x0ff0, 0xf0f0, 0x00f0, ⟨false, false, false⟩),
      (minusOne, intMin, intMin, ⟨false, true, false⟩)] = true := by decide

theorem test_xorq :
    opTable 0x63 [(0x5a, 0x5a, 0, ⟨true, false, false⟩),
      (intMin, intMax, minusOne, ⟨false, true, false⟩)] = true := by decide

/-- Section 2.2: same register, and the sentinel as destination, which still sets the flags. -/
theorem test_addq_same_register_and_sentinel :
    stepTo (code 0 [0x60, 0x00] [(.rax, 7)])
      (fun t => t.reg .rax == 14 && t.cc == ⟨false, false, false⟩) = true ∧
    stepTo (code 0 [0x60, 0x0f] [(.rax, 7)])
      (fun t => t.reg .rax == 7 && t.reg .rnone == 0 && t.cc == ⟨false, false, false⟩ && t.pc == 2) = true := by
  decide

/-- Section 2.2: function codes that select no operation, E2. -/
theorem test_invalid_alu_op :
    stopsWith (code 0 [0x64, 0x03] [(.rax, 1), (.rbx, 2)]) .ins = true ∧
    stopsWith (code 0 [0x6f, 0x03] [(.rax, 1), (.rbx, 2)]) .ins = true := by decide

/-- Section 2.8: pushq %rsp stores the old value; the lowest %rsp that can push. -/
theorem test_pushq :
    stepTo (code 0x1000 [0xa0, 0x4f] [(.rsp, 0x200)])
      (fun t => t.reg .rsp == 0x1f8 && t.readWord 0x1f8 == some 0x200 && t.pc == 0x1002) = true ∧
    stepTo (code 0x1000 [0xa0, 0x0f] [(.rsp, 8), (.rax, 0x2a)])
      (fun t => t.reg .rsp == 0 && t.readWord 0 == some 0x2a) = true := by decide

/-- Section 2.8, E1. -/
theorem test_pushq_stops :
    [0, 7, 0x2001].all (fun sp : Word =>
      stopsWith (code 0x1000 [0xa0, 0x0f] [(.rsp, sp), (.rax, 0x2a)]) .adr) = true := by decide

/-- Section 2.8: popq %rsp leaves the loaded word. -/
theorem test_popq :
    stepTo ((code 0x1000 [0xb0, 0x4f] [(.rsp, 0x1f8)]).setByte 0x1f8 0x2a)
      (fun t => t.reg .rsp == 0x2a && t.pc == 0x1002) = true ∧
    stepTo ((code 0x1000 [0xb0, 0x3f] [(.rsp, 0x1ff8)]).setByte 0x1fff 0x80)
      (fun t => t.reg .rbx == intMin && t.reg .rsp == 0x2000) = true := by decide

/-- Section 2.8. -/
theorem test_popq_stops :
    stopsWith (code 0x1000 [0xb0, 0x3f] [(.rsp, 0x1ff9)]) .adr = true ∧
    stopsWith (code 0x1000 [0xb0, 0x3f] [(.rsp, 0x1ffe)]) .adr = true := by decide

/-- Section 2.8. -/
theorem test_call :
    stepTo (code 0x100 [0x80, 0, 2, 0, 0, 0, 0, 0, 0] [(.rsp, 0x200)])
      (fun t => t.reg .rsp == 0x1f8 && t.readWord 0x1f8 == some 0x109 && t.pc == 0x200) = true ∧
    stopsWith (code 0x100 [0x80, 0, 2, 0, 0, 0, 0, 0, 0] []) .adr = true := by decide

/-- Section 2.8, and its reset case: the word at 0 is the ret itself. -/
theorem test_ret :
    stepTo ((code 0x100 [0x90] [(.rsp, 0x1f8)]).setByte 0x1f8 0x31)
      (fun t => t.reg .rsp == 0x200 && t.pc == 0x31) = true ∧
    stepTo (code 0 [0x90] []) (fun t => t.reg .rsp == 8 && t.pc == 0x90) = true ∧
    stopsWith (code 0x100 [0x90] [(.rsp, 0x1ffe)]) .adr = true := by decide

/-- Section 2.4: fetches that end at MEM_SIZE, and the priority of R186. -/
theorem test_fetch_bounds :
    stopsWith (code 0x2000 [] []) .adr = true ∧
    stopsWith (code 0xffffffffffffffff [] []) .adr = true ∧
    stopsWith (code 0x1fff [0x20] []) .adr = true ∧
    stopsWith (code 0x1ff7 [0x30, 0xf0, 1, 0, 0, 0, 0, 0, 0] []) .adr = true ∧
    stepTo (code 0x1ff6 [0x30, 0xf0, 1, 0, 0, 0, 0, 0, 0, 0] [])
      (fun t => t.reg .rax == 1 && t.pc == 0x2000) = true ∧
    stepTo (code 0x1ff7 [0x70, 0x90, 0, 0, 0, 0, 0, 0, 0] []) (fun t => t.pc == 0x90) = true := by decide

theorem test_fetch_priority :
    stopsWith (code 0x1fff [0x27] []) .adr = true ∧ stopsWith (code 0x1fff [0x64] []) .adr = true ∧
    stopsWith (code 0x1fff [0xc0] []) .ins = true ∧ stopsWith (code 0x1ff8 [0x77] []) .adr = true ∧
    stopsWith (code 0x1ff7 [0x77] []) .ins = true := by decide

/-- Section 2.1: unused function codes on a machine that checks them. -/
theorem test_strict_ifun :
    stopsWith (codeIn strict 0 [0x11] []) .ins = true ∧
    stopsWith (codeIn strict 0 [0x91] []) .ins = true ∧
    stopsWith (codeIn strict 0 [0xa1, 0x0f] [(.rsp, 0x200)]) .ins = true ∧
    stopsWith (codeIn strict 0 [0x0f] []) .hlt = true ∧
    stepTo (code 0 [0xa1, 0x0f] [(.rsp, 0x200)]) (fun t => t.reg .rsp == 0x1f8 && t.pc == 2) = true := by
  decide

/-- Section 2.9: the loader lines, after tokenising. -/
theorem test_loader :
    loadLine State.reset { addr := some 0x100, tokens := [some 0x10, some 0x20, none, some 0x40] } =
      ({ State.reset with mem := [(0x100, 0x10), (0x101, 0x20)] }, true) ∧
    loadLine State.reset { addr := none, tokens := [some 0x10] } = (State.reset, true) ∧
    loadLine State.reset { addr := some 0x2000, tokens := [some 0x10] } = (State.reset, false) ∧
    loadListing State.reset [{ addr := some 0x1fff, tokens := [some 0x10, some 0x20] },
        { addr := some 0, tokens := [some 0x30] }] =
      ({ State.reset with mem := [(0x1fff, 0x10)] }, false) := by decide

/-- R209: a jump to itself never ends; the reset machine ends halted. -/
theorem test_driver :
    drive 3 (code 0 [0x70, 0, 0, 0, 0, 0, 0, 0, 0] []) = .outOfFuel ∧
    drive 3 State.reset = .ended { State.reset with stat := .hlt } ∧
    bootAndRun Config.default [{ addr := some 0x2000, tokens := [some 0x10] }] [] 3 = .loadFailed := by
  decide

/-- The record of R208: a register by its name (R11), and the non-zero words at multiples of 8. -/
theorem test_report :
    (code 0x106 [1, 2, 3] []).report.words = [(0x100, 0x0201000000000000), (0x108, 3)] ∧
    (code 0x106 [1, 2, 3] []).report.code = 1 ∧
    (code 0 [] [(.r14, 7)]).report.registers[14]? = some ("%r14", 7) ∧
    (code 0 [] [(.r14, 7)]).report.registers.length = 15 := by decide

/-- Placing a table word makes the next step run it. -/
theorem test_with_fetch_word :
    (State.reset.withFetchWord 16 0x2161).fetchBytes = [0x61, 0x21, 0, 0, 0, 0, 0, 0, 0, 0] ∧
    stepTo (State.reset.withFetchWord 8 0x10) (fun t => t.pc == 1 && t.stat == .aok) = true := by decide

/-! ## Witnesses: the hypotheses of each obligation, met -/

theorem test_witness_DecodeOfEncodeIsIdentity :
    (Instr.pushq 15 .rnone .rnone).wf Config.default = true ∧
    (Instr.irmovq 0 .rax .rnone minusOne).wf strict = true := by decide

theorem test_witness_EncodeOfDecodeIsIdentity :
    decode Config.default [0xbf, 0x4f, 7] = .ok (.popq 15 .rsp .rnone, [7]) ∧
    decode strict [0x0f] = .ok (.halt 15, []) := by decide

/-- The legality condition of OpcodeByteIsInstructionOrInvalid, as a function of the byte. -/
def legalOpcode (cfg : Config) (b0 : Byte) : Prop :=
  b0.toNat / 16 ≤ 0xB ∧ (b0.toNat / 16 = 2 ∨ b0.toNat / 16 = 7 → b0.toNat % 16 ≤ 6) ∧
  (b0.toNat / 16 = 6 → b0.toNat % 16 ≤ 3) ∧
  (cfg.ignoreUnusedIfun = false → b0.toNat / 16 ≠ 0 → b0.toNat / 16 ≠ 2 → b0.toNat / 16 ≠ 6 →
    b0.toNat / 16 ≠ 7 → b0.toNat % 16 = 0)

theorem test_witness_OpcodeByteIsInstructionOrInvalid :
    9 ≤ (List.replicate 9 (0 : Byte)).length ∧
    (legalOpcode Config.default 0x00 ∧ legalOpcode Config.default 0xbf ∧ legalOpcode Config.default 0x26 ∧
      legalOpcode Config.default 0x63 ∧ legalOpcode Config.default 0x76 ∧ legalOpcode strict 0x0f ∧
      legalOpcode strict 0xb0) ∧
    ¬ legalOpcode Config.default 0xc0 ∧ ¬ legalOpcode Config.default 0xff ∧
    ¬ legalOpcode Config.default 0x27 ∧ ¬ legalOpcode Config.default 0x64 ∧
    ¬ legalOpcode Config.default 0x77 ∧ ¬ legalOpcode strict 0x11 ∧ ¬ legalOpcode strict 0xb1 := by
  simp [legalOpcode, strict, Config.default]

theorem test_witness_StoppedMachineStepsAreNoOps :
    [Stat.hlt, .adr, .ins].all (fun c => ({ State.reset with stat := c } : State).stat.code != 1) = true := by
  decide

/-- A running machine with the bytes placed at pc, as far as they fit. -/
abbrev Fetched (cfg : Config) (pc : Nat) (bytes : List Byte) : Prop :=
  (codeIn cfg pc bytes []).stat = .aok ∧ FetchesBytes (codeIn cfg pc bytes []) bytes

/-- The last place a code of this length fits, and the place one past it. -/
abbrev FetchedAtTheEnd (bytes : List Byte) : Prop :=
  Fetched Config.default (0x2000 - bytes.length) bytes ∧
  (0x2000 - bytes.length) + bytes.length ≤ Config.default.memSize ∧
  Fetched Config.default (0x2001 - bytes.length) bytes ∧
  ¬ (0x2001 - bytes.length) + bytes.length ≤ Config.default.memSize

theorem test_witness_StepRunsTheDecodedInstruction :
    decode Config.default [0x30, 0xf2, 0x0a, 0, 0, 0, 0, 0, 0, 0] = .ok (.irmovq 0 .rnone .rdx 10, []) ∧
    FetchedAtTheEnd [0x30, 0xf2, 0x0a, 0, 0, 0, 0, 0, 0, 0] ∧
    decode Config.default [0x00] = .ok (.halt 0, []) ∧ FetchedAtTheEnd [0x00] := by decide

/-- Each clause: pc past Storage; no class; a missing byte in each length; an unused and a selecting
function code; an instruction. -/
theorem test_witness_FetchStopsInPriorityOrder :
    (code 0x2000 [] []).cfg.memSize ≤ (code 0x2000 [] []).pc.toNat ∧
    (code 0x1fff [0xc0] []).byte 0x1fff = 0xc0 ∧ 0x1fff < Config.default.memSize ∧
    (code 0x1fff [0xbf] []).byte 0x1fff = 0xbf ∧ Config.default.memSize < 0x1fff + 2 ∧
    (code 0x1ff8 [0x80] []).byte 0x1ff8 = 0x80 ∧ Config.default.memSize < 0x1ff8 + 9 ∧
    (code 0x1ff7 [0x30] []).byte 0x1ff7 = 0x30 ∧ Config.default.memSize < 0x1ff7 + 10 ∧
    (codeIn strict 0x1fff [0x11] []).byte 0x1fff = 0x11 ∧ strict.ignoreUnusedIfun = false ∧
    (code 0x1ffe [0x27] []).byte 0x1ffe = 0x27 ∧ (code 0x1ffe [0x64] []).byte 0x1ffe = 0x64 ∧
    (code 0x1ff7 [0x77] []).byte 0x1ff7 = 0x77 ∧ 0x1ff7 + 9 ≤ Config.default.memSize ∧
    (code 0x1ff7 [0x76] []).byte 0x1ff7 = 0x76 ∧ (code 0x1ffe [0xbf] []).byte 0x1ffe = 0xbf ∧
    [0x2000, 0x1fff, 0x1ff8, 0x1ff7, 0x1ffe].all (fun pc => (code pc [0] []).stat == .aok &&
      (code pc [0] []).pc.toNat == pc) = true := by decide

theorem test_witness_StopsArePrecise :
    stepTo State.reset (fun t => t.stat != .aok) = true ∧
    stepTo (code 0 [0x40, 0xff, 0xf9, 0x1f, 0, 0, 0, 0, 0, 0] []) (fun t => t.stat == .adr) = true ∧
    stepTo (code 0 [0x6f, 0x03] []) (fun t => t.stat == .ins) = true := by decide

theorem test_witness_HaltStopsAtItsOwnAddress :
    FetchedAtTheEnd [0x00] ∧ FetchedAtTheEnd [0x0f] ∧ Fetched strict 0x1fff [0x0f] := by decide

theorem test_witness_NopOnlyAdvances :
    FetchedAtTheEnd [0x10] ∧ Fetched strict 0x1fff [0x11] ∧ Fetched strict 0x1fff [0x10] := by decide

theorem test_witness_RegisterMovesFollowTheirConditions :
    [0x20, 0x21, 0x22, 0x23, 0x24, 0x25, 0x26].all
      (fun op => decide (FetchedAtTheEnd [op, 0x01])) = true := by decide

theorem test_witness_IrmovqLoadsItsConstant :
    FetchedAtTheEnd (0x30 :: 0xf2 :: constBytes minusOne) ∧
    Fetched strict 0 (0x31 :: 0xff :: constBytes 1) := by decide

theorem test_witness_RmmovqStoresOrRaisesAdr :
    FetchedAtTheEnd (0x40 :: 0x03 :: constBytes 8) ∧ Fetched strict 0 (0x41 :: 0x03 :: constBytes 8) ∧
    WordOk State.reset (State.reset.baseDisp .rbx 0x1ff8) ∧
    ¬ WordOk State.reset (State.reset.baseDisp .rbx 0x1ff9) ∧
    ¬ WordOk State.reset (State.reset.baseDisp .rbx minusOne) := by decide

/-- The last part: a store and then a load at the same address, the destination not the sentinel. -/
theorem test_witness_MrmovqLoadsOrRaisesAdr :
    FetchedAtTheEnd (0x50 :: 0x03 :: constBytes 8) ∧ Fetched strict 0 (0x51 :: 0x03 :: constBytes 8) ∧
    WordOk State.reset (State.reset.reg .rbx + 0) ∧ WordOk State.reset (State.reset.reg .rbx + 0x1ff8) ∧
    ¬ WordOk State.reset (State.reset.reg .rbx + 0x1ff9) ∧
    answers (exec (.rmmovq 0 .rax .rbx 0x1ff8) State.reset) (fun _ => true) = true ∧ Reg.rcx ≠ .rnone := by
  decide

theorem test_witness_ArithLogicResultsAndFlags :
    [0x60, 0x61, 0x62, 0x63].all (fun op => decide (FetchedAtTheEnd [op, 0x0f])) = true := by decide

theorem test_witness_JumpsFollowTheirConditions :
    [0x70, 0x71, 0x72, 0x73, 0x74, 0x75, 0x76].all
      (fun op => decide (FetchedAtTheEnd (op :: constBytes 0x90))) = true := by decide

theorem test_witness_PushqStoresBelowTheStackPointer :
    FetchedAtTheEnd [0xa0, 0x4f] ∧ Fetched strict 0 [0xa1, 0x4f] ∧
    WordOk (code 0 [] [(.rsp, 8)]) (code 0 [] [(.rsp, 8)]).pushAddr ∧
    WordOk (code 0 [] [(.rsp, 0x2000)]) (code 0 [] [(.rsp, 0x2000)]).pushAddr ∧
    ¬ WordOk (code 0 [] [(.rsp, 7)]) (code 0 [] [(.rsp, 7)]).pushAddr ∧
    ¬ WordOk (code 0 [] [(.rsp, 0x2001)]) (code 0 [] [(.rsp, 0x2001)]).pushAddr := by decide

theorem test_witness_PopqLoadsFromTheStackPointer :
    FetchedAtTheEnd [0xb0, 0x3f] ∧ Fetched strict 0 [0xb1, 0x3f] ∧
    WordOk State.reset (State.reset.reg .rsp) ∧
    WordOk (code 0 [] [(.rsp, 0x1ff8)]) ((code 0 [] [(.rsp, 0x1ff8)]).reg .rsp) ∧
    ¬ WordOk (code 0 [] [(.rsp, 0x1ff9)]) ((code 0 [] [(.rsp, 0x1ff9)]).reg .rsp) ∧ Reg.rbx ≠ .rsp := by
  decide

theorem test_witness_CallPushesTheReturnAddress :
    FetchedAtTheEnd (0x80 :: constBytes 0x200) ∧ Fetched strict 0 (0x81 :: constBytes 0x200) ∧
    WordOk (code 0 [] [(.rsp, 8)]) (code 0 [] [(.rsp, 8)]).pushAddr ∧
    WordOk (code 0 [] [(.rsp, 0x2000)]) (code 0 [] [(.rsp, 0x2000)]).pushAddr ∧
    ¬ WordOk (code 0 [] [(.rsp, 0x2001)]) (code 0 [] [(.rsp, 0x2001)]).pushAddr ∧
    ¬ WordOk State.reset State.reset.pushAddr := by decide

theorem test_witness_RetPopsTheReturnAddress :
    FetchedAtTheEnd [0x90] ∧ Fetched strict 0 [0x91] ∧
    WordOk State.reset (State.reset.reg .rsp) ∧
    WordOk (code 0 [] [(.rsp, 0x1ff8)]) ((code 0 [] [(.rsp, 0x1ff8)]).reg .rsp) ∧
    ¬ WordOk (code 0 [] [(.rsp, 0x1ff9)]) ((code 0 [] [(.rsp, 0x1ff9)]).reg .rsp) := by decide

theorem test_witness_OverflowFlagIsExactRange :
    answers (exec (.addq .rax .rbx) (code 0 [] [(.rax, 1), (.rbx, intMax)])) (fun t => t.cc.of) = true ∧
    answers (exec (.subq .rax .rbx) (code 0 [] [(.rax, 1), (.rbx, intMin)])) (fun t => t.cc.of) = true ∧
    Reg.rbx ≠ .rnone := by decide

theorem test_witness_ConditionsAfterSubqCompareSigned :
    answers (exec (.subq .rax .rbx) (code 0 [] [(.rax, 1), (.rbx, intMin)])) (fun _ => true) = true := by
  decide

/-- Every instruction but halt completes on a running machine with room on the stack. -/
theorem test_witness_CompletingInstructionSetsPc :
    [Instr.nop 0, .rrmovq .rax .rbx, .cmovle .rax .rbx, .cmovl .rax .rbx, .cmove .rax .rbx,
      .cmovne .rax .rbx, .cmovge .rax .rbx, .cmovg .rax .rbx, .irmovq 0 .rnone .rax 1,
      .rmmovq 0 .rax .rbx 0, .mrmovq 0 .rax .rbx 0, .addq .rax .rbx, .subq .rax .rbx, .andq .rax .rbx,
      .xorq .rax .rbx, .jmp 0, .jle 0, .jl 0, .je 0, .jne 0, .jge 0, .jg 0, .call 0 0, .ret 0,
      .pushq 0 .rax .rnone, .popq 0 .rax .rnone].all (fun i =>
        answers (exec i (code 0 [] [(.rsp, 8)])) fun t => t.stat == .aok) = true ∧
    (code 0 [] [(.rsp, 8)]).stat = .aok := by decide

theorem test_witness_OnlyArithLogicWritesConditionCodes :
    stepTo (code 0 [0x60, 0x03] [(.rax, 1)]) (fun t => t.cc != State.reset.cc) = true := by decide

/-- The first and the last byte of a store change, by each of the three that store. -/
theorem test_witness_OnlyStoresChangeStorage :
    stepTo (code 0 [0x40, 0x0f, 0xf8, 0x1f, 0, 0, 0, 0, 0, 0] [(.rax, minusOne)])
      (fun t => t.byte 0x1ff8 != 0 && t.byte 0x1fff != 0) = true ∧
    stepTo (code 0x100 [0xa0, 0x0f] [(.rax, minusOne), (.rsp, 8)])
      (fun t => t.byte 0 != 0 && t.byte 7 != 0) = true ∧
    stepTo (code 0x100 [0x80, 0, 0, 0, 0, 0, 0, 0, 0] [(.rsp, 8)]) (fun t => t.byte 0 != 0) = true := by
  decide

theorem test_witness_StepKeepsStorageInvariant :
    (code 0x1ffe [0xa0, 0x0f] [(.rsp, 0x2000)]).inv ∧
    stepTo (code 0x1ffe [0xa0, 0x0f] [(.rsp, 0x2000)]) (fun t => t.stat == .aok) = true := by decide

theorem test_witness_HostMovesKeepStorageInvariant :
    (code 0 [0x10] []).inv ∧
    [HostMove.reset, .load [{ addr := some 0x1fff, tokens := [some 1, some 2] }], .setRegister .rnone 1,
      .step].all (fun m => answers (hostMove (code 0 [0x10] []) m) fun _ => true) = true := by decide

/-- RESET_PC inside Storage, at both ends. -/
theorem test_witness_ResetFromAnyState :
    State.reset.cfg.resetPc.toNat < State.reset.cfg.memSize ∧
    ({ Config.default with resetPc := 0x1fff } : Config).resetPc.toNat < Config.default.memSize := by decide

theorem test_witness_SentinelReadsZeroAndDiscardsWrites :
    Reg.rax ≠ .rnone ∧ Reg.r14 ≠ .rnone ∧ Reg.rnone ≠ .r14 := by decide

theorem test_witness_WordAccessContract :
    WordOk State.reset 0 ∧ WordOk State.reset 0x1ff8 ∧ ¬ WordOk State.reset 0x1ff9 ∧
    ¬ WordOk State.reset minusOne := by decide

theorem test_witness_NegativeAddressesAreOutOfBounds :
    intMin.toInt < 0 ∧ minusOne.toInt < 0 ∧ (State.reset.reg .rsp).toNat < 8 ∧
    ((code 0 [] [(.rsp, 7)]).reg .rsp).toNat < 8 := by decide

theorem test_witness_PushThenPopRoundTrip :
    WordOk (code 0 [] [(.rsp, 8)]) (code 0 [] [(.rsp, 8)]).pushAddr ∧ Reg.rbx ≠ .rsp ∧ Reg.rbx ≠ .rnone ∧
    Reg.rcx ≠ .rbx ∧ Reg.rcx ≠ .rsp := by decide

theorem test_witness_CallThenRetRoundTrip :
    WordOk (code 0 [] [(.rsp, 0x2000)]) (code 0 [] [(.rsp, 0x2000)]).pushAddr := by decide

/-- Program 4: the store of 0x10, nop, at the next pc. -/
theorem test_witness_FetchSeesEarlierStore :
    (code 0xa [] [(.rax, 0x10)]).stat = .aok ∧ (Instr.nop 0).wf Config.default = true ∧
    (Instr.nop 0).length ≤ 8 ∧ (code 0xa [] [(.rax, 0x10)]).baseDisp .rnone 0x14 = 0xa + 10 ∧
    WordOk (code 0xa [] [(.rax, 0x10)]) ((code 0xa [] [(.rax, 0x10)]).baseDisp .rnone 0x14) ∧
    (∀ k, (h : k < (encode (.nop 0)).length) →
      ((code 0xa [] [(.rax, 0x10)]).reg .rax).extractLsb' (8 * k) 8 = (encode (.nop 0))[k]) ∧
    answers (exec (.rmmovq 0 .rax .rnone 0x14) (code 0xa [] [(.rax, 0x10)])) (fun _ => true) = true := by
  decide

/-- A line that ends, and one cut by a bad token; a line that fits to the last byte, and one past it. -/
theorem test_witness_LoaderWritesUpToTheFirstFailure :
    (([] : List (Option Byte)) = [] ∨ ∃ tail, ([] : List (Option Byte)) = none :: tail) ∧
    ([none, some (0x40 : Byte)] = [] ∨ ∃ tail, [none, some (0x40 : Byte)] = none :: tail) ∧
    0x1ffe + [(0x10 : Byte), 0x20].length ≤ State.reset.cfg.memSize ∧
    ¬ 0x1fff + [(0x10 : Byte), 0x20].length ≤ State.reset.cfg.memSize ∧
    0 < [(0x10 : Byte), 0x20].length ∧ 0x1fff + 0 < State.reset.cfg.memSize := by
  exact ⟨.inl rfl, .inr ⟨_, rfl⟩, by decide⟩

theorem test_witness_ReportShowsRegistersFlagsAndAlignedWords :
    (code 0x1ffd [1, 2, 3] []).inv := by decide

end Sys2Proof.Tests
end

section
/-! PROOFS. The statements about the state as a whole: the sentinel slot (10_state.md R12) and the pc that
each completing instruction leaves (R17). The pc is proved once per shared form, from what the form can
do. -/

namespace Sys2Proof.Machine

/-- A write to the sentinel is discarded (R12). -/
@[simp] theorem State.setReg_rnone (s : State) (v : Word) : s.setReg .rnone v = s := rfl

/-- Settles O31: the laws of the register accessors, one per clause. -/
theorem sentinelReadsZeroAndDiscardsWrites : Obligations.SentinelReadsZeroAndDiscardsWrites := by
  intro s r v
  refine ⟨State.reg_rnone s, State.setReg_rnone s v, fun hr => ?_, fun r' hne => ?_⟩
  · simp [State.setReg_reg_self, hr]
  · exact State.setReg_reg_of_ne s r r' v hne

section Completion

variable {s t : State}

/-- A load that leaves the machine running has gone on with the word at its address. -/
theorem eq_of_loadThen_running {a : Word} {go : Word → State} (h : loadThen s a go = .next t)
    (hrun : t.stat = .aok) : t = go (s.mem.readWord a.toNat) := by
  rcases loadThen_cases s a go with ⟨-, e⟩ | ⟨-, e⟩ <;> cases e.symm.trans h
  · rfl
  · cases hrun

/-- A store that leaves the machine running has gone on with the word written at its address. -/
theorem eq_of_storeThen_running {a v : Word} {go : State → State} (h : storeThen s a v go = .next t)
    (hrun : t.stat = .aok) : t = go { s with mem := s.mem.writeBytes a.toNat (leBytes v) } := by
  rcases storeThen_cases s a v go with ⟨-, e⟩ | ⟨-, e⟩ <;> cases e.symm.trans h
  · rfl
  · cases hrun

theorem registerMove_pc {c : Cond} {rA rB : Reg} (h : registerMove c rA rB s = .next t) :
    t.pc = s.pc + 2 := by
  cases (registerMove_eq c rA rB s).symm.trans h
  rfl

theorem arithLogic_pc {op : AluOp} {rA rB : Reg} (h : arithLogic op rA rB s = .next t) :
    t.pc = s.pc + 2 := by
  cases (arithLogic_eq op rA rB s).symm.trans h
  rfl

theorem jumpIf_pc {c : Cond} {D : Word} (h : jumpIf c D s = .next t) :
    t.pc = if c.holds s.cc then D else s.pc + 9 := by
  cases (jumpIf_eq c D s).symm.trans h
  rfl

/-- The word read at an address is the word Storage holds there (20_memory.md R33). -/
theorem holdsWord_readWord (s : State) (a : Word) : HoldsWord s a (s.mem.readWord a.toNat) :=
  fun k hk => (Memory.wordByte_readWord s.mem a.toNat k hk).symm

end Completion

/-- Settles O24: by the instruction's class, from the pc of its shared form. -/
theorem completingInstructionSetsPc : Obligations.CompletingInstructionSetsPc := by
  intro i s t _ h hrun ZF SF OF after branch
  cases i with
  | halt => cases h; cases hrun
  | nop => cases h; rfl
  | rrmovq | cmovle | cmovl | cmove | cmovne | cmovge | cmovg => exact registerMove_pc h
  | irmovq => cases h; rfl
  | addq | subq | andq | xorq => exact arithLogic_pc h
  | jmp D => exact jumpIf_pc (c := .always) h
  | jle D => exact jumpIf_pc (c := .le) h
  | jl D => exact jumpIf_pc (c := .l) h
  | je D => exact jumpIf_pc (c := .e) h
  | jne D => exact jumpIf_pc (c := .ne) h
  | jge D => exact jumpIf_pc (c := .ge) h
  | jg D => exact jumpIf_pc (c := .g) h
  | rmmovq | pushq | call => cases eq_of_storeThen_running h hrun; rfl
  | mrmovq | popq => cases eq_of_loadThen_running h hrun; rfl
  | ret => cases eq_of_loadThen_running h hrun; exact holdsWord_readWord s _

end Sys2Proof.Machine
end

section
/-! PROOFS. The step of a stopped machine (40_step_datapath.md R70): it answers the same state, and a run
made of such steps stays where it began. -/

namespace Sys2Proof.Machine

/-- The running status is the one with code 1 (R20). -/
theorem Stat.code_eq_one_iff (c : Stat) : c.code = 1 ↔ c = .aok := by
  cases c <;> decide

/-- A run from a state whose step changes nothing ends in that state. -/
theorem run_of_step_self {s : State} (h : step s = .next s) (n : Nat) :
    Host.Core.run Sys2Proof.core n s = .next s := by
  induction n with
  | zero => exact run_zero s
  | succ n ih => exact (run_succ n s s h).trans ih

/-- Settles O5: the step of a stopped machine is the identity, so each step of a run starts over from
the same stopped state. -/
theorem stoppedMachineStepsAreNoOps : Obligations.StoppedMachineStepsAreNoOps := by
  intro s hcode
  have hstep : step s = .next s := step_of_stopped s (mt s.stat.code_eq_one_iff.mpr hcode)
  exact ⟨hstep, run_of_step_self hstep⟩

end Sys2Proof.Machine
end

section
/-! PROOFS. How a running machine takes an instruction from the bytes at pc (40_step_datapath.md R72 to
R78): ADR where Storage ends too early, INS where the bytes decode to none, and its effect where they
decode to one. The first instruction settled from it is halt (41_halt_nop.md R100). -/

namespace Sys2Proof.Machine

/-- No class is longer than what one fetch can read (30_encoding.md R50). -/
theorem classLength_le_maxLength (c : InstrClass) : c.length ≤ maxLength := by
  cases c <;> decide

/-- Fewer bytes than the class of the opcode byte needs decode to nothing (R75, R76). -/
theorem decode_of_length_lt (cfg : Config) {b0 : Byte} {bs : List Byte} {c : InstrClass}
    (hc : InstrClass.ofIcode (highNibble b0) = some c) (h : (b0 :: bs).length < c.length) :
    decode cfg (b0 :: bs) = .error .truncated := by
  rw [List.length_cons] at h
  rcases decode_cons cfg b0 bs with ⟨hnone, -⟩ | ⟨c', hc', ⟨-, hd⟩ | ⟨_, _, _, rest, hlen, -⟩⟩
  · cases hc.symm.trans hnone
  · exact hd
  · cases hc.symm.trans hc'
    omega

section

variable {s : State}

theorem step_of_decode_ok {i : Instr} {rest : List Byte} (hs : s.stat = .aok)
    (hd : decode s.cfg s.fetchBytes = .ok (i, rest)) : step s = exec i s := by
  rw [step_of_running s hs, hd]

theorem step_of_decode_error {e : DecodeError} (hs : s.stat = .aok)
    (hd : decode s.cfg s.fetchBytes = .error e) : step s = .next (s.stop (stopOf e)) := by
  rw [step_of_running s hs, hd]

variable {b0 : Byte} {bs : List Byte} {c : InstrClass}

/-- A fetch that the end of Storage cuts short decodes to nothing (R77). -/
theorem decode_fetchBytes_of_cut (hc : InstrClass.ofIcode (highNibble b0) = some c)
    (hf : FetchesBytes s (b0 :: bs)) (hcut : s.cfg.memSize < s.pc.toNat + c.length) :
    decode s.cfg s.fetchBytes = .error .truncated := by
  have hlen := s.length_fetchBytes
  have hfront := s.getElem_fetchBytes 0
  cases hbytes : s.fetchBytes with
  | nil => rfl
  | cons x xs =>
    simp only [hbytes, List.length_cons] at hlen hfront
    have hx : x = b0 := (hfront (by omega)).trans (hf 0 (by simp) (by omega))
    subst hx
    have hmax : c.length ≤ 10 := classLength_le_maxLength c
    refine decode_of_length_lt s.cfg hc ?_
    rw [List.length_cons]
    omega

/-- What the decoder answers on the bytes, whatever follows them, is what the machine does with them at
pc; the end of Storage comes first (60_exceptions.md R186). -/
theorem runsAs_of_decode {allowed : Bool} {i : Instr}
    (hc : InstrClass.ofIcode (highNibble b0) = some c) (hlen : (b0 :: bs).length = c.length)
    (hok : allowed = true → ∀ rest, decode s.cfg (b0 :: bs ++ rest) = .ok (i, rest))
    (hbad : allowed = false →
      ∀ rest, ∃ e, decode s.cfg (b0 :: bs ++ rest) = .error e ∧ stopOf e = .ins) :
    RunsAs s (b0 :: bs) allowed i := by
  intro hs hf
  split
  case isTrue hin =>
    obtain ⟨rest, hbytes⟩ := s.fetchBytes_eq_append (b0 :: bs) (hlen ▸ classLength_le_maxLength c) hin
      fun k hk => hf k hk (by omega)
    cases allowed with
    | true => exact step_of_decode_ok hs (hbytes ▸ hok rfl rest)
    | false =>
      obtain ⟨e, hd, he⟩ := hbad rfl rest
      rw [step_of_decode_error hs (hbytes ▸ hd), he]
      rfl
  case isFalse hout =>
    exact step_of_decode_error hs (decode_fetchBytes_of_cut hc hf (by omega))

end

/-- The class halt reads its opcode byte alone, with any function code (R54, R58). -/
theorem decode_halt (cfg : Config) (ifun : Nibble) (rest : List Byte) :
    decode cfg (opcodeByte .halt ifun :: rest) = .ok (.halt ifun, rest) := by
  simp [decode, takeRegs, takeConst, assemble, InstrClass.hasRegs, InstrClass.hasConst,
    InstrClass.checksUnusedIfun]

/-- Settles O10: a halt decodes under every function code, it only stops, and a halted machine does not
step. -/
theorem haltStopsAtItsOwnAddress : Obligations.HaltStopsAtItsOwnAddress := by
  intro s ifun
  have hruns : RunsAs s [opcodeByte .halt ifun] true (.halt ifun) :=
    runsAs_of_decode (c := .halt) (by simp) rfl (fun _ => decode_halt s.cfg ifun) nofun
  have hstays : step (s.stop .hlt) = .next (s.stop .hlt) := step_of_stopped _ (by simp)
  exact ⟨hruns, rfl, run_of_step_self hstays⟩

end Sys2Proof.Machine
end

section
/-! PROOFS. The register moves (42_moves.md R110 to R116): how the classes of format F2, an opcode byte and
a register byte, decode, and what the one mechanism of the register-move class does under each condition. -/

namespace Sys2Proof.Machine

/-- A class of format F2 reads its register byte and no constant word (R55, R75, R76). -/
theorem decode_registerFormat (cfg : Config) {c : InstrClass} {ifun : Nibble} {rA rB : Reg} {i : Instr}
    (hregs : c.hasRegs = true) (hconst : c.hasConst = false)
    (hifun : (c.checksUnusedIfun && !ifunAllowed cfg ifun) = false)
    (hi : assemble c ifun rA rB 0#64 = .ok i) (rest : List Byte) :
    decode cfg (opcodeByte c ifun :: regByte rA rB :: rest) = .ok (i, rest) := by
  simp [decode, takeRegs, takeConst, hregs, hconst, hifun, hi]

section

variable (s : State) {c : Cond} {ifun : Nibble} {i : Instr} {rA rB : Reg}

/-- A function code that selects a register move runs it, on every machine (R56). -/
theorem runsAs_of_moveOf (hi : moveOf ifun rA rB = .ok i) :
    RunsAs s [opcodeByte .move ifun, regByte rA rB] true i :=
  runsAs_of_decode (c := .move) (by simp) rfl (fun _ => decode_registerFormat s.cfg rfl rfl rfl hi) nofun

/-- The register-move mechanism moves rA to rB under its condition and changes nothing else but pc. -/
theorem movesIf_of_registerMove (h : exec i s = registerMove c rA rB s) :
    MovesIf (c.holds s.cc) i rA rB s := by
  refine ⟨_, h.trans (registerMove_eq c rA rB s), ?_⟩
  cases c.holds s.cc with
  | true =>
    refine ⟨rfl, rfl, ⟨rfl, rfl⟩, fun _ => rfl, fun r hr => ?_, ?_⟩
    · exact State.setReg_reg_of_ne s rB r _ (List.ne_of_not_mem_cons hr)
    · simp [State.setReg_reg]
  | false => exact ⟨rfl, rfl, ⟨rfl, rfl⟩, fun _ => rfl, fun _ _ => rfl, rfl⟩

end

/-- Settles O12: each function code selects the move whose condition its rule names. -/
theorem registerMovesFollowTheirConditions : Obligations.RegisterMovesFollowTheirConditions := by
  intro s rA rB ZF SF OF fields
  have runs {ifun : Nibble} {i : Instr} (hi : moveOf ifun rA rB = .ok i) := runsAs_of_moveOf s hi
  have moves (c : Cond) {i : Instr} (h : exec i s = registerMove c rA rB s) := movesIf_of_registerMove s h
  exact ⟨⟨runs (ifun := 0) rfl, moves .always rfl⟩, ⟨runs (ifun := 1) rfl, moves .le rfl⟩,
    ⟨runs (ifun := 2) rfl, moves .l rfl⟩, ⟨runs (ifun := 3) rfl, moves .e rfl⟩,
    ⟨runs (ifun := 4) rfl, moves .ne rfl⟩, ⟨runs (ifun := 5) rfl, moves .ge rfl⟩,
    ⟨runs (ifun := 6) rfl, moves .g rfl⟩⟩

end Sys2Proof.Machine
end

section
/-! PROOFS. The arithmetic/logic class (44_alu.md R140 to R143): the flags of its one mechanism in the terms
of the rules, by bit 63, and what it leaves. -/

namespace Sys2Proof.Machine

/-- The sign bit, spelled as the rules spell it (40_step_datapath.md R83). -/
theorem msb_eq_bit63 (w : Word) : w.msb = w[63] := BitVec.msb_eq_getLsbD_last w

theorem overflow_add (a b r : Word) : overflow .add a b r = (a[63] == b[63] && r[63] != a[63]) := by
  simp only [overflow, msb_eq_bit63]

theorem overflow_sub (a b r : Word) : overflow .sub a b r = (a[63] != b[63] && r[63] != b[63]) := by
  simp only [overflow, msb_eq_bit63]

section

variable (s : State) {op : AluOp} {ifun : Nibble} {i : Instr} {rA rB : Reg}

/-- A function code that selects an arithmetic/logic instruction runs it, on every machine (R57). -/
theorem runsAs_of_opqOf (hi : opqOf ifun rA rB = .ok i) :
    RunsAs s [opcodeByte .opq ifun, regByte rA rB] true i :=
  runsAs_of_decode (c := .opq) (by simp) rfl (fun _ => decode_registerFormat s.cfg rfl rfl rfl hi) nofun

/-- The arithmetic/logic mechanism writes its result to rB and the three flags, and changes nothing else
but pc. -/
theorem computes_of_arithLogic {overflows : Bool} (h : exec i s = arithLogic op rA rB s)
    (hof : overflow op (s.reg rA) (s.reg rB) (alu op (s.reg rA) (s.reg rB)) = overflows) :
    Computes i rB s (alu op (s.reg rA) (s.reg rB)) overflows := by
  refine ⟨_, h.trans (arithLogic_eq op rA rB s), rfl, ?_, ⟨rfl, rfl⟩, fun _ => rfl, fun r hr => ?_, ?_⟩
  · simp [aluFlags, hof, msb_eq_bit63]
  · exact State.setReg_reg_of_ne _ rB r _ (List.ne_of_not_mem_cons hr)
  · exact State.setReg_reg_self _ rB _

end

/-- Settles O16: each function code selects its operation, and the overflow of each is its rule's formula. -/
theorem arithLogicResultsAndFlags : Obligations.ArithLogicResultsAndFlags := by
  intro s rA rB A B fields
  have runs {ifun : Nibble} {i : Instr} (hi : opqOf ifun rA rB = .ok i) := runsAs_of_opqOf s hi
  exact ⟨⟨runs (ifun := 0) rfl, computes_of_arithLogic s (op := .add) rfl (overflow_add A B _)⟩,
    ⟨runs (ifun := 1) rfl, computes_of_arithLogic s (op := .sub) rfl (overflow_sub A B _)⟩,
    ⟨runs (ifun := 2) rfl, computes_of_arithLogic s (op := .and) rfl rfl⟩,
    ⟨runs (ifun := 3) rfl, computes_of_arithLogic s (op := .xor) rfl rfl⟩⟩

end Sys2Proof.Machine
end

section
/-! PROOFS. The jumps (45_branch.md R150 to R156): how the classes of format F9, an opcode byte and a
constant word, decode, and what the one mechanism of the branch class does under each condition. -/

namespace Sys2Proof.Machine

/-- The bytes statements write for a constant word are the bytes the encoder writes (R53). -/
theorem constBytes_eq_leBytes (v : Word) : constBytes v = leBytes v := rfl

/-- A class of format F9 reads no register byte, and its constant word (R55, R75, R76). -/
theorem decode_constFormat (cfg : Config) {c : InstrClass} {ifun : Nibble} {D : Word} {i : Instr}
    (hregs : c.hasRegs = false) (hconst : c.hasConst = true)
    (hifun : (c.checksUnusedIfun && !ifunAllowed cfg ifun) = false)
    (hi : assemble c ifun .rnone .rnone D = .ok i) (rest : List Byte) :
    decode cfg (opcodeByte c ifun :: constBytes D ++ rest) = .ok (i, rest) := by
  simp [constBytes_eq_leBytes, decode, takeRegs, takeConst, hregs, hconst, hifun, hi]

section

variable (s : State) {c : Cond} {ifun : Nibble} {i : Instr} {D : Word}

/-- A function code that selects a jump runs it, on every machine (R56). -/
theorem runsAs_of_jumpOf (hi : jumpOf ifun D = .ok i) :
    RunsAs s (opcodeByte .jump ifun :: constBytes D) true i :=
  runsAs_of_decode (c := .jump) (by simp) rfl (fun _ => decode_constFormat s.cfg rfl rfl rfl hi) nofun

/-- The branch mechanism sets pc by its condition and changes nothing else. -/
theorem jumpsIf_of_jumpIf (h : exec i s = jumpIf c D s) : JumpsIf (c.holds s.cc) i D s :=
  ⟨_, h.trans (jumpIf_eq c D s), rfl, rfl, ⟨rfl, rfl⟩, fun _ => rfl, fun _ _ => rfl⟩

end

/-- Settles O17: each function code selects the jump whose condition its rule names. -/
theorem jumpsFollowTheirConditions : Obligations.JumpsFollowTheirConditions := by
  intro s D ZF SF OF
  have runs {ifun : Nibble} {i : Instr} (hi : jumpOf ifun D = .ok i) := runsAs_of_jumpOf s hi
  have jumps (c : Cond) {i : Instr} (h : exec i s = jumpIf c D s) := jumpsIf_of_jumpIf s h
  exact ⟨⟨runs (ifun := 0) rfl, jumps .always rfl⟩, ⟨runs (ifun := 1) rfl, jumps .le rfl⟩,
    ⟨runs (ifun := 2) rfl, jumps .l rfl⟩, ⟨runs (ifun := 3) rfl, jumps .e rfl⟩,
    ⟨runs (ifun := 4) rfl, jumps .ne rfl⟩, ⟨runs (ifun := 5) rfl, jumps .ge rfl⟩,
    ⟨runs (ifun := 6) rfl, jumps .g rfl⟩⟩

end Sys2Proof.Machine
end

section
/-! PROOFS. Decoding and encoding undo each other (30_encoding.md sections 1 to 4). Both are compared with
one third thing, the bytes that a class and its fields are laid out as, `classBytes`: the decoder reads the
fields back from them, and the encoder writes them for the instruction that the fields assemble to. -/

namespace Sys2Proof

/-- The register byte of a class that has one (R52, R55). -/
def InstrClass.regBytes (c : InstrClass) (rA rB : Reg) : List Byte :=
  match c.hasRegs with
  | true => [regByte rA rB]
  | false => []

/-- The constant word of a class that has one (R53, R55). -/
def InstrClass.wordBytes (c : InstrClass) (valC : Word) : List Byte :=
  match c.hasConst with
  | true => leBytes valC
  | false => []

/-- The bytes of an instruction of a class with these fields, in memory order (R50). -/
def classBytes (c : InstrClass) (ifun : Nibble) (rA rB : Reg) (valC : Word) : List Byte :=
  opcodeByte c ifun :: (c.regBytes rA rB ++ c.wordBytes valC)

/-- The decoder's check of an unused function code (40_step_datapath.md R78). -/
def InstrClass.ifunOk (cfg : Config) (c : InstrClass) (ifun : Nibble) : Bool :=
  !(c.checksUnusedIfun && !ifunAllowed cfg ifun)

section

variable {cfg : Config} {c : InstrClass} {ifun : Nibble} {rA rB : Reg} {valC : Word} {i : Instr}

@[simp] theorem length_classBytes : (classBytes c ifun rA rB valC).length = c.length := by
  cases c <;> rfl

/-! ### What the fields assemble to -/

/-- A function code is known from its number. -/
theorem eq_ofNat_of_toNat {n : Nat} (h : ifun.toNat = n) : ifun = BitVec.ofNat 4 n := by
  simp [← h]

/-- A register move's function code is the one its encoding carries (R56). -/
theorem wf_encode_of_moveOf (h : moveOf ifun rA rB = .ok i) :
    i.wf cfg = true ∧ encode i = [opcodeByte .move ifun, regByte rA rB] := by
  unfold moveOf at h
  split at h <;> cases h <;>
    (next hifun => cases eq_ofNat_of_toNat hifun; exact ⟨rfl, rfl⟩)

/-- An arithmetic/logic instruction's function code is the one its encoding carries (R57). -/
theorem wf_encode_of_opqOf (h : opqOf ifun rA rB = .ok i) :
    i.wf cfg = true ∧ encode i = [opcodeByte .opq ifun, regByte rA rB] := by
  unfold opqOf at h
  split at h <;> cases h <;>
    (next hifun => cases eq_ofNat_of_toNat hifun; exact ⟨rfl, rfl⟩)

/-- A jump's function code is the one its encoding carries (R56). -/
theorem wf_encode_of_jumpOf (h : jumpOf ifun valC = .ok i) :
    i.wf cfg = true ∧ encode i = opcodeByte .jump ifun :: leBytes valC := by
  unfold jumpOf at h
  split at h <;> cases h <;>
    (next hifun => cases eq_ofNat_of_toNat hifun; exact ⟨rfl, rfl⟩)

/-- The instruction assembled from fields is well-formed exactly if its function code passes the check,
and its encoding lays out those fields. -/
theorem wf_encode_of_assemble (h : assemble c ifun rA rB valC = .ok i) :
    i.wf cfg = c.ifunOk cfg ifun ∧ encode i = classBytes c ifun rA rB valC := by
  have checked : (!(true && !ifunAllowed cfg ifun)) = ifunAllowed cfg ifun := by simp
  cases c with
  | move => exact wf_encode_of_moveOf h
  | opq => exact wf_encode_of_opqOf h
  | jump => exact wf_encode_of_jumpOf h
  | halt => cases h; exact ⟨rfl, rfl⟩
  | nop | irmovq | rmmovq | mrmovq | call | ret | pushq | popq =>
    cases h
    exact ⟨checked.symm, rfl⟩

/-- Every instruction is assembled from some fields. -/
theorem exists_assemble (i : Instr) : ∃ c ifun rA rB valC, assemble c ifun rA rB valC = .ok i := by
  cases i with
  | halt f => exact ⟨.halt, f, .rnone, .rnone, 0, rfl⟩
  | nop f => exact ⟨.nop, f, .rnone, .rnone, 0, rfl⟩
  | rrmovq rA rB => exact ⟨.move, 0, rA, rB, 0, rfl⟩
  | cmovle rA rB => exact ⟨.move, 1, rA, rB, 0, rfl⟩
  | cmovl rA rB => exact ⟨.move, 2, rA, rB, 0, rfl⟩
  | cmove rA rB => exact ⟨.move, 3, rA, rB, 0, rfl⟩
  | cmovne rA rB => exact ⟨.move, 4, rA, rB, 0, rfl⟩
  | cmovge rA rB => exact ⟨.move, 5, rA, rB, 0, rfl⟩
  | cmovg rA rB => exact ⟨.move, 6, rA, rB, 0, rfl⟩
  | irmovq f rA rB D => exact ⟨.irmovq, f, rA, rB, D, rfl⟩
  | rmmovq f rA rB D => exact ⟨.rmmovq, f, rA, rB, D, rfl⟩
  | mrmovq f rA rB D => exact ⟨.mrmovq, f, rA, rB, D, rfl⟩
  | addq rA rB => exact ⟨.opq, 0, rA, rB, 0, rfl⟩
  | subq rA rB => exact ⟨.opq, 1, rA, rB, 0, rfl⟩
  | andq rA rB => exact ⟨.opq, 2, rA, rB, 0, rfl⟩
  | xorq rA rB => exact ⟨.opq, 3, rA, rB, 0, rfl⟩
  | jmp D => exact ⟨.jump, 0, .rnone, .rnone, D, rfl⟩
  | jle D => exact ⟨.jump, 1, .rnone, .rnone, D, rfl⟩
  | jl D => exact ⟨.jump, 2, .rnone, .rnone, D, rfl⟩
  | je D => exact ⟨.jump, 3, .rnone, .rnone, D, rfl⟩
  | jne D => exact ⟨.jump, 4, .rnone, .rnone, D, rfl⟩
  | jge D => exact ⟨.jump, 5, .rnone, .rnone, D, rfl⟩
  | jg D => exact ⟨.jump, 6, .rnone, .rnone, D, rfl⟩
  | call f D => exact ⟨.call, f, .rnone, .rnone, D, rfl⟩
  | ret f => exact ⟨.ret, f, .rnone, .rnone, 0, rfl⟩
  | pushq f rA rB => exact ⟨.pushq, f, rA, rB, 0, rfl⟩
  | popq f rA rB => exact ⟨.popq, f, rA, rB, 0, rfl⟩

/-! ### What the decoder reads -/

/-- The register fields taken stood at the front. -/
theorem regBytes_of_takeRegs {bs bs1 : List Byte} (h : takeRegs c bs = some (rA, rB, bs1)) :
    c.regBytes rA rB ++ bs1 = bs := by
  rw [InstrClass.regBytes]
  cases hregs : c.hasRegs with
  | false =>
    simp only [takeRegs, hregs, Option.some.injEq, Prod.mk.injEq] at h
    obtain ⟨-, -, hbs⟩ := h
    exact hbs.symm
  | true =>
    cases bs with
    | nil => simp [takeRegs, hregs] at h
    | cons b bs =>
      simp only [takeRegs, hregs, Option.some.injEq, Prod.mk.injEq] at h
      obtain ⟨rfl, rfl, rfl⟩ := h
      simp [regByte]

/-- The constant word taken stood at the front. -/
theorem wordBytes_of_takeConst {bs1 rest : List Byte} (h : takeConst c bs1 = some (valC, rest)) :
    c.wordBytes valC ++ rest = bs1 := by
  rw [InstrClass.wordBytes]
  cases hconst : c.hasConst with
  | false =>
    simp only [takeConst, hconst, Option.some.injEq, Prod.mk.injEq] at h
    obtain ⟨-, hbs⟩ := h
    exact hbs.symm
  | true =>
    simp only [takeConst, hconst] at h
    exact leBytes_of_takeWord bs1 rest valC h

/-- The register fields are read back, or are the sentinel and do not matter (R75). -/
theorem takeRegs_regBytes (hi : assemble c ifun rA rB valC = .ok i) (bs : List Byte) :
    ∃ rA' rB', takeRegs c (c.regBytes rA rB ++ bs) = some (rA', rB', bs) ∧
      assemble c ifun rA' rB' valC = .ok i := by
  cases c with
  | halt | nop | jump | call | ret => exact ⟨.rnone, .rnone, rfl, hi⟩
  | move | irmovq | rmmovq | mrmovq | opq | pushq | popq =>
    exact ⟨rA, rB, by simp [takeRegs, InstrClass.regBytes, InstrClass.hasRegs], hi⟩

/-- The constant word is read back, or is 0 and does not matter (R76). -/
theorem takeConst_wordBytes (hi : assemble c ifun rA rB valC = .ok i) (bs : List Byte) :
    ∃ valC', takeConst c (c.wordBytes valC ++ bs) = some (valC', bs) ∧
      assemble c ifun rA rB valC' = .ok i := by
  cases c with
  | halt | nop | move | opq | ret | pushq | popq => exact ⟨0, rfl, hi⟩
  | irmovq | rmmovq | mrmovq | jump | call => exact ⟨valC, takeWord_leBytes valC bs, hi⟩

/-- Fields laid out decode to what they assemble to, if the function code passes the check. -/
theorem decode_classBytes (hi : assemble c ifun rA rB valC = .ok i) (hifun : c.ifunOk cfg ifun = true)
    (rest : List Byte) : decode cfg (classBytes c ifun rA rB valC ++ rest) = .ok (i, rest) := by
  obtain ⟨rA', rB', hregs, hi⟩ := takeRegs_regBytes hi (c.wordBytes valC ++ rest)
  obtain ⟨valC', hconst, hi⟩ := takeConst_wordBytes hi rest
  simp [classBytes, decode, hregs, hconst, (Bool.not_eq_true' _).mp hifun, hi]

/-- What decodes is laid out as its class lays out fields that assemble to it. -/
theorem exists_of_decode_ok {bytes rest : List Byte} (h : decode cfg bytes = .ok (i, rest)) :
    ∃ c ifun rA rB valC, assemble c ifun rA rB valC = .ok i ∧ c.ifunOk cfg ifun = true ∧
      bytes = classBytes c ifun rA rB valC ++ rest := by
  unfold decode at h
  split at h
  case h_1 => cases h
  case h_2 b0 bs =>
    split at h
    case h_1 => cases h
    case h_2 c hc =>
      split at h
      case h_1 => cases h
      case h_2 rA rB bs1 hregs =>
        split at h
        case h_1 => cases h
        case h_2 valC bs2 hconst =>
          split at h
          case isTrue => cases h
          case isFalse hifun =>
            split at h
            case h_1 => cases h
            case h_2 j hi =>
              cases h
              refine ⟨c, lowNibble b0, rA, rB, valC, hi, by simp [InstrClass.ifunOk, hifun], ?_⟩
              rw [classBytes, opcodeByte, InstrClass.icode_of_ofIcode _ c hc, nibbles_split,
                List.cons_append, List.append_assoc, wordBytes_of_takeConst hconst,
                regBytes_of_takeRegs hregs]

end

/-- Settles O2: the encoding lays out the fields the instruction is assembled from, and the decoder reads
them back. -/
theorem decodeOfEncodeIsIdentity : Obligations.DecodeOfEncodeIsIdentity := by
  intro cfg i rest hwf
  obtain ⟨c, ifun, rA, rB, valC, hi⟩ := exists_assemble i
  obtain ⟨hifun, hbytes⟩ := wf_encode_of_assemble (cfg := cfg) hi
  rw [hbytes]
  exact decode_classBytes hi (hifun ▸ hwf) rest

/-- Settles O3: the bytes read are the fields laid out, and so is the encoding of what they assemble to. -/
theorem encodeOfDecodeIsIdentity : Obligations.EncodeOfDecodeIsIdentity := by
  intro cfg bytes rest i h
  obtain ⟨c, ifun, rA, rB, valC, hi, hifun, rfl⟩ := exists_of_decode_ok h
  obtain ⟨hwf, hbytes⟩ := wf_encode_of_assemble (cfg := cfg) hi
  exact ⟨hwf.trans hifun, by rw [hbytes]⟩

/-- Settles O1: each word is the encoding of its instruction. -/
theorem decodesWordsOfTheSpec : Obligations.DecodesWordsOfTheSpec := by
  intro rest
  have decodes (i : Instr) (hwf : i.wf Config.default = true) :
      decode Config.default (encode i ++ rest) = .ok (i, rest) :=
    decodeOfEncodeIsIdentity Config.default i rest hwf
  exact ⟨decodes (.irmovq 0 .rnone .rdx 10) rfl, decodes (.subq .rdx .rcx) rfl,
    decodes (.mrmovq 0 .rsi .rbx 8) rfl, decodes (.jne 0x1e) rfl, decodes (.pushq 0 .rsi .rnone) rfl⟩

end Sys2Proof
end

section
/-! PROOFS. What every step keeps: a stop is precise (60_exceptions.md section 2), only arithmetic/logic
writes the condition codes (10_state.md R19), and only the three stores write Storage, so that it stays
canonical (20_memory.md sections 1 and 4). Each is proved of `exec`, and `step_next_cases` carries it over
to the step. -/

namespace Sys2Proof.Machine

section

variable {s t : State} {a w : Word} {i : Instr}

/-- What holds of every word loaded and of the stop holds of the state a load answers. -/
theorem of_loadThen {P : State → Prop} {go : Word → State} (h : loadThen s a go = .next t)
    (hgo : ∀ v, P (go v)) (hstop : P (s.stop .adr)) : P t := by
  rcases loadThen_cases s a go with ⟨-, e⟩ | ⟨-, e⟩ <;> cases e.symm.trans h
  exacts [hgo _, hstop]

/-- What holds after a valid write and of the stop holds of the state a store answers. -/
theorem of_storeThen {P : State → Prop} {v : Word} {go : State → State} (h : storeThen s a v go = .next t)
    (hgo : WordOk s a → P (go { s with mem := s.mem.writeBytes a.toNat (leBytes v) }))
    (hstop : P (s.stop .adr)) : P t := by
  rcases storeThen_cases s a v go with ⟨ha, e⟩ | ⟨-, e⟩ <;> cases e.symm.trans h
  exacts [hgo ha, hstop]

/-- What holds with the register written and without holds of the state a register move answers. -/
theorem of_registerMove {P : State → Prop} {c : Cond} {rA rB : Reg} (h : registerMove c rA rB s = .next t)
    (htaken : P ((s.setReg rB (s.reg rA)).setPc (s.pc + 2))) (hnot : P (s.setPc (s.pc + 2))) : P t := by
  cases (registerMove_eq c rA rB s).symm.trans h
  cases c.holds s.cc
  exacts [hnot, htaken]

/-! ### One instruction -/

/-- Only arithmetic/logic changes the condition codes. -/
theorem exec_cc (h : exec i s = .next t) : t.cc = s.cc ∨ IsArithLogic i := by
  cases i with
  | addq | subq | andq | xorq => exact .inr trivial
  | halt | nop | irmovq | jmp | jle | jl | je | jne | jge | jg => cases h; exact .inl rfl
  | rrmovq | cmovle | cmovl | cmove | cmovne | cmovge | cmovg =>
    exact .inl (of_registerMove (P := fun t => t.cc = s.cc) h rfl rfl)
  | rmmovq | pushq | call => exact .inl (of_storeThen (P := fun t => t.cc = s.cc) h (fun _ => rfl) rfl)
  | mrmovq | popq | ret => exact .inl (of_loadThen (P := fun t => t.cc = s.cc) h (fun _ => rfl) rfl)

/-- Storage after is Storage before with one word written, at a valid address. -/
def StoredAt (s t : State) (w : Word) : Prop :=
  WordOk s w ∧ ∃ v, t.mem = s.mem.writeBytes w.toNat (leBytes v)

/-- Only the instructions with a store address change Storage, and they write one word there. -/
theorem exec_mem (h : exec i s = .next t) :
    t.mem = s.mem ∨ ∃ w, storeAddr i s = some w ∧ StoredAt s t w := by
  cases i with
  | halt | nop | irmovq | addq | subq | andq | xorq | jmp | jle | jl | je | jne | jge | jg =>
    cases h; exact .inl rfl
  | rrmovq | cmovle | cmovl | cmove | cmovne | cmovge | cmovg =>
    exact .inl (of_registerMove (P := fun t => t.mem = s.mem) h rfl rfl)
  | mrmovq | popq | ret => exact .inl (of_loadThen (P := fun t => t.mem = s.mem) h (fun _ => rfl) rfl)
  | rmmovq | pushq | call =>
    exact of_storeThen (P := fun t => t.mem = s.mem ∨ ∃ w, _ = some w ∧ StoredAt s t w) h
      (fun ha => .inr ⟨_, rfl, ha, _, rfl⟩) (.inl rfl)

/-- A byte that a store changed is one of the eight at its address, inside Storage. -/
theorem StoredAt.byte_ne (h : StoredAt s t w) {x : Nat} (hx : t.byte x ≠ s.byte x) :
    w.toNat ≤ x ∧ x < w.toNat + 8 ∧ x < s.cfg.memSize := by
  obtain ⟨hw, v, hmem⟩ := h
  have hin : w.toNat ≤ x ∧ x < w.toNat + 8 := by
    by_contra hout
    exact hx ((congrArg (Memory.read · x) hmem).trans
      (Memory.read_writeBytes_outside (leBytes v) s.mem w.toNat x hout))
  have := lt_memSize_of_wordInBounds s.cfg w (x - w.toNat) hw (by omega)
  omega

/-- A store keeps Storage canonical and within MEM_SIZE. -/
theorem StoredAt.inv (h : StoredAt s t w) (hcfg : t.cfg = s.cfg) (hs : s.inv) : t.inv := by
  obtain ⟨hw, v, hmem⟩ := h
  obtain ⟨hwf, hin⟩ := hs
  rw [State.inv, hmem, hcfg]
  refine ⟨Memory.writeBytes_wf _ _ _ hwf, fun c hc => ?_⟩
  rcases Memory.mem_writeBytes _ _ _ c hc with hold | ⟨hge, hlt⟩
  · exact hin c hold
  · have := s.cfg.memSize_ge
    rw [length_leBytes] at hlt
    omega

/-! ### One step -/

/-- A step leaves the state before but for the status, or the state its instruction answers. -/
theorem step_next_cases (h : step s = .next t) :
    (∃ code, t = s.stop code) ∨
    s.stat = .aok ∧ ∃ i rest, decode s.cfg s.fetchBytes = .ok (i, rest) ∧ exec i s = .next t := by
  rcases step_cases s with ⟨-, e⟩ | ⟨-, err, -, e⟩ | ⟨hs, i, rest, hd, e⟩
  · cases e.symm.trans h; exact .inl ⟨s.stat, rfl⟩
  · cases e.symm.trans h; exact .inl ⟨stopOf err, rfl⟩
  · exact .inr ⟨hs, i, rest, hd, e.symm.trans h⟩

/-- The state an instruction answers has kept status and parameters, or is a stop. -/
theorem exec_next_cases (h : exec i s = .next t) : Kept s t ∨ ∃ code, t = s.stop code := by
  obtain ⟨u, hu, hcases⟩ := exec_cases i s
  cases hu.symm.trans h
  rcases hcases with hkept | rfl | rfl
  exacts [.inl hkept, .inr ⟨_, rfl⟩, .inr ⟨_, rfl⟩]

/-- No step changes the parameters. -/
theorem step_cfg (h : step s = .next t) : t.cfg = s.cfg := by
  rcases step_next_cases h with ⟨code, rfl⟩ | ⟨-, i, rest, -, he⟩
  · rfl
  · rcases exec_next_cases he with ⟨-, hcfg⟩ | ⟨code, rfl⟩
    exacts [hcfg, rfl]

end

/-- Settles O8: a step is a stop, or an instruction that keeps the running status or is a stop. -/
theorem stopsArePrecise : Obligations.StopsArePrecise := by
  intro s t h hstopped
  rcases step_next_cases h with ⟨code, rfl⟩ | ⟨hs, i, rest, -, he⟩
  · rfl
  · rcases exec_next_cases he with ⟨hstat, -⟩ | ⟨code, rfl⟩
    · exact absurd (hstat.trans hs) hstopped
    · rfl

/-- Settles O9: each of the three kinds of step answers a next state, and a run is made of steps. -/
theorem everyStepHasANextState : Obligations.EveryStepHasANextState := by
  have hstep (s : State) : ∃ t, step s = .next t := by
    rcases step_cases s with ⟨-, e⟩ | ⟨-, err, -, e⟩ | ⟨-, i, rest, -, e⟩
    · exact ⟨_, e⟩
    · exact ⟨_, e⟩
    · obtain ⟨t, ht, -⟩ := exec_cases i s
      exact ⟨t, e.trans ht⟩
  intro s n
  refine ⟨hstep s, ?_⟩
  induction n generalizing s with
  | zero => exact ⟨s, run_zero s⟩
  | succ n ih =>
    obtain ⟨t, ht⟩ := hstep s
    obtain ⟨u, hu⟩ := ih t
    exact ⟨u, (run_succ n s t ht).trans hu⟩

/-- Settles O25: a stop keeps the condition codes, and so does every other instruction. -/
theorem onlyArithLogicWritesConditionCodes : Obligations.OnlyArithLogicWritesConditionCodes := by
  intro s t h hcc
  rcases step_next_cases h with ⟨code, rfl⟩ | ⟨hs, i, rest, hd, he⟩
  · exact absurd rfl hcc
  · exact ⟨i, rest, hs, hd, (exec_cc he).resolve_left hcc⟩

/-- Settles O26: a changed byte is one of those the instruction's store wrote. -/
theorem onlyStoresChangeStorage : Obligations.OnlyStoresChangeStorage := by
  intro s t a h hbyte
  rcases step_next_cases h with ⟨code, rfl⟩ | ⟨hs, i, rest, hd, he⟩
  · exact absurd rfl hbyte
  · rcases exec_mem he with hmem | ⟨w, hw, hstored⟩
    · exact absurd (congrArg (Memory.read · a) hmem) hbyte
    · exact ⟨i, rest, w, hs, hd, hw, hstored.byte_ne hbyte⟩

/-- Settles O27: a step leaves Storage as it is, or writes one word inside it. -/
theorem stepKeepsStorageInvariant : Obligations.StepKeepsStorageInvariant := by
  intro s t hinv h
  have hcfg : t.cfg = s.cfg := step_cfg h
  refine ⟨?_, hcfg⟩
  rcases step_next_cases h with ⟨code, rfl⟩ | ⟨-, i, rest, -, he⟩
  · exact hinv
  · rcases exec_mem he with hmem | ⟨w, -, hstored⟩
    · rwa [State.inv, hmem, hcfg]
    · exact hstored.inv hcfg hinv

end Sys2Proof.Machine
end

section
/-! PROOFS. Which opcode bytes are instructions (30_encoding.md sections 3 and 4), and what a fetch and its
decoding answer in the order of 60_exceptions.md R186. Both turn on the class the opcode byte selects, and
on whether its function code is legal: it passes the check, and it selects something. -/

namespace Sys2Proof

open Machine (stopOf)

/-- The function code selects an instruction of the class; where the class uses none, every one does
(30_encoding.md R56 to R58). -/
def InstrClass.Selects : InstrClass → Nibble → Prop
  | .move, ifun => ifun.toNat ≤ 6
  | .jump, ifun => ifun.toNat ≤ 6
  | .opq, ifun => ifun.toNat ≤ 3
  | _, _ => True

/-- The function code is allowed in the class and selects something. -/
def InstrClass.Legal (cfg : Config) (c : InstrClass) (ifun : Nibble) : Prop :=
  c.ifunOk cfg ifun = true ∧ c.Selects ifun

section

variable {cfg : Config} {c : InstrClass} {ifun : Nibble} {rA rB : Reg} {valC : Word} {i : Instr}
  {b0 : Byte} {bs : List Byte}

/-! ### Function codes -/

theorem moveOf_cases (ifun : Nibble) (rA rB : Reg) :
    (ifun.toNat ≤ 6 ∧ ∃ i, moveOf ifun rA rB = .ok i) ∨
    (¬ ifun.toNat ≤ 6 ∧ moveOf ifun rA rB = .error (.noSuchCondition ifun)) := by
  unfold moveOf
  split
  case h_8 => exact .inr ⟨by simp only [imp_false] at *; omega, rfl⟩
  all_goals exact .inl ⟨by omega, _, rfl⟩

theorem opqOf_cases (ifun : Nibble) (rA rB : Reg) :
    (ifun.toNat ≤ 3 ∧ ∃ i, opqOf ifun rA rB = .ok i) ∨
    (¬ ifun.toNat ≤ 3 ∧ opqOf ifun rA rB = .error (.noSuchAluOp ifun)) := by
  unfold opqOf
  split
  case h_5 => exact .inr ⟨by simp only [imp_false] at *; omega, rfl⟩
  all_goals exact .inl ⟨by omega, _, rfl⟩

theorem jumpOf_cases (ifun : Nibble) (valC : Word) :
    (ifun.toNat ≤ 6 ∧ ∃ i, jumpOf ifun valC = .ok i) ∨
    (¬ ifun.toNat ≤ 6 ∧ jumpOf ifun valC = .error (.noSuchCondition ifun)) := by
  unfold jumpOf
  split
  case h_8 => exact .inr ⟨by simp only [imp_false] at *; omega, rfl⟩
  all_goals exact .inl ⟨by omega, _, rfl⟩

/-- Fields assemble to an instruction exactly if the function code selects one, and else stop with INS. -/
theorem assemble_cases (c : InstrClass) (ifun : Nibble) (rA rB : Reg) (valC : Word) :
    (c.Selects ifun ∧ ∃ i, assemble c ifun rA rB valC = .ok i) ∨
    (¬ c.Selects ifun ∧ ∃ e, assemble c ifun rA rB valC = .error e ∧ stopOf e = .ins) := by
  cases c with
  | move => exact (moveOf_cases ifun rA rB).imp_right fun ⟨hno, he⟩ => ⟨hno, _, he, rfl⟩
  | opq => exact (opqOf_cases ifun rA rB).imp_right fun ⟨hno, he⟩ => ⟨hno, _, he, rfl⟩
  | jump => exact (jumpOf_cases ifun valC).imp_right fun ⟨hno, he⟩ => ⟨hno, _, he, rfl⟩
  | halt | nop | irmovq | rmmovq | mrmovq | call | ret | pushq | popq =>
    exact .inl ⟨trivial, _, rfl⟩

/-! ### Lengths -/

theorem length_encode (i : Instr) : (encode i).length = i.length := by
  cases i <;> rfl

/-- An assembled instruction has the length of its class (R55). -/
theorem length_of_assemble (h : assemble c ifun rA rB valC = .ok i) : i.length = c.length := by
  rw [← length_encode, (wf_encode_of_assemble (cfg := Config.default) h).2, length_classBytes]

/-! ### What the decoder answers -/

theorem decode_of_no_class (hc : InstrClass.ofIcode (highNibble b0) = none) :
    decode cfg (b0 :: bs) = .error (.noSuchClass (highNibble b0)) := by
  simp [decode, hc]

/-- With all bytes of its class at hand, an opcode byte with a legal function code decodes, and one with
another stops with INS. -/
theorem decode_of_class (hc : InstrClass.ofIcode (highNibble b0) = some c)
    (hlen : c.length ≤ (b0 :: bs).length) :
    (c.Legal cfg (lowNibble b0) →
      ∃ i rest, decode cfg (b0 :: bs) = .ok (i, rest) ∧ i.length = c.length) ∧
    (¬ c.Legal cfg (lowNibble b0) → ∃ e, decode cfg (b0 :: bs) = .error e ∧ stopOf e = .ins) := by
  rw [List.length_cons] at hlen
  rcases decode_cons cfg b0 bs with ⟨hnone, -⟩ | ⟨c', hc', ⟨hlt, -⟩ | ⟨rA, rB, valC, rest, -, -, hd⟩⟩
  · cases hc.symm.trans hnone
  · cases hc.symm.trans hc'
    omega
  · cases hc.symm.trans hc'
    rw [hd]
    cases hcheck : c.checksUnusedIfun && !ifunAllowed cfg (lowNibble b0) with
    | true =>
      have hnot : ¬ c.Legal cfg (lowNibble b0) := by simp [InstrClass.Legal, InstrClass.ifunOk, hcheck]
      exact ⟨fun h => absurd h hnot, fun _ => ⟨_, rfl, rfl⟩⟩
    | false =>
      have hiff : c.Legal cfg (lowNibble b0) ↔ c.Selects (lowNibble b0) := by
        simp [InstrClass.Legal, InstrClass.ifunOk, hcheck]
      rw [hiff]
      rcases assemble_cases c (lowNibble b0) rA rB valC with ⟨hsel, i, hi⟩ | ⟨hsel, e, he, hins⟩
      · rw [hi]
        exact ⟨fun _ => ⟨i, rest, rfl, length_of_assemble hi⟩, fun h => absurd hsel h⟩
      · rw [he]
        exact ⟨fun h => absurd h hsel, fun _ => ⟨e, rfl, hins⟩⟩

/-! ### Classes by their numbers -/

/-- The numbers of the classes are 0 to 0xB (R54, R60). -/
theorem twelve_le_of_ofIcode_eq_none (h : InstrClass.ofIcode (highNibble b0) = none) :
    12 ≤ b0.toNat / 16 := by
  revert b0
  decide

theorem icode_eq_of_ofIcode (h : InstrClass.ofIcode (highNibble b0) = some c) :
    b0.toNat / 16 = c.icode.toNat := by
  rw [← highNibble_toNat, InstrClass.icode_of_ofIcode _ c h]

theorem icode_lt_twelve (c : InstrClass) : c.icode.toNat < 12 := by
  cases c <;> decide

/-- The lengths of R55 by class number. -/
theorem length_eq_by_icode (c : InstrClass) :
    c.length = if c.icode.toNat ∈ [3, 4, 5] then 10 else if c.icode.toNat ∈ [7, 8] then 9
      else if c.icode.toNat ∈ [2, 6, 0xA, 0xB] then 2 else 1 := by
  cases c <;> rfl

/-- The classes of R78 by number. -/
theorem checksUnusedIfun_iff (c : InstrClass) :
    c.checksUnusedIfun = true ↔ c.icode.toNat ∈ [1, 3, 4, 5, 8, 9, 0xA, 0xB] := by
  cases c <;> decide

theorem ifunAllowed_eq_false_iff :
    ifunAllowed cfg ifun = false ↔ ifun.toNat ≠ 0 ∧ cfg.ignoreUnusedIfun = false := by
  rw [ifunAllowed, Bool.or_eq_false_iff, beq_eq_false_iff_ne, Ne, BitVec.toNat_eq]
  exact and_comm

/-- A refused function code, in the terms of the rules (R78). -/
theorem ifunOk_eq_false_iff :
    c.ifunOk cfg ifun = false ↔ c.icode.toNat ∈ [1, 3, 4, 5, 8, 9, 0xA, 0xB] ∧ ifun.toNat ≠ 0 ∧
      cfg.ignoreUnusedIfun = false := by
  rw [← checksUnusedIfun_iff, ← ifunAllowed_eq_false_iff]
  simp [InstrClass.ifunOk]

/-- A function code that selects nothing, in the terms of the rules (R56, R57). -/
theorem not_selects_iff :
    ¬ c.Selects ifun ↔ (c.icode.toNat ∈ [2, 7] ∧ 7 ≤ ifun.toNat) ∨ (c.icode.toNat = 6 ∧ 4 ≤ ifun.toNat) := by
  cases c <;> simp [InstrClass.Selects, InstrClass.icode] <;> omega

theorem not_legal_iff :
    ¬ c.Legal cfg ifun ↔ c.ifunOk cfg ifun = false ∨ ¬ c.Selects ifun := by
  rw [InstrClass.Legal, not_and_or, Bool.not_eq_true]

/-- A legal function code, in the terms of the rules. -/
theorem legal_iff :
    c.Legal cfg ifun ↔ c.icode.toNat ≤ 0xB ∧ (c.icode.toNat = 2 ∨ c.icode.toNat = 7 → ifun.toNat ≤ 6) ∧
      (c.icode.toNat = 6 → ifun.toNat ≤ 3) ∧
      (cfg.ignoreUnusedIfun = false → c.icode.toNat ≠ 0 → c.icode.toNat ≠ 2 → c.icode.toNat ≠ 6 →
        c.icode.toNat ≠ 7 → ifun.toNat = 0) := by
  rw [← not_iff_not, not_legal_iff, ifunOk_eq_false_iff, not_selects_iff]
  have := icode_lt_twelve c
  simp only [List.mem_cons, List.not_mem_nil, or_false]
  cases cfg.ignoreUnusedIfun <;> simp <;> omega

end

/-- Settles O4: the class decides which function codes are legal, and legality whether the byte decodes. -/
theorem opcodeByteIsInstructionOrInvalid : Obligations.OpcodeByteIsInstructionOrInvalid := by
  intro cfg b0 bs hlen icode ifun legal
  cases hc : InstrClass.ofIcode (highNibble b0) with
  | none =>
    have hnot : ¬ legal := fun ⟨hle, _⟩ => absurd hle (by have := twelve_le_of_ofIcode_eq_none hc; omega)
    exact ⟨fun h => absurd h hnot, fun _ => ⟨_, decode_of_no_class hc, rfl⟩⟩
  | some c =>
    have hmax : c.length ≤ 10 := Machine.classLength_le_maxLength c
    have hlegal : legal ↔ c.Legal cfg (lowNibble b0) := by
      rw [legal_iff, ← icode_eq_of_ofIcode hc, lowNibble_toNat]
    obtain ⟨hok, hbad⟩ := decode_of_class (cfg := cfg) (bs := bs) hc (by rw [List.length_cons]; omega)
    rw [hlegal]
    exact ⟨fun h => let ⟨i, rest, hd, _⟩ := hok h; ⟨i, rest, hd⟩, hbad⟩

namespace Machine

section

variable {s : State} {c : InstrClass}

/-! ### What a fetch finds -/

/-- A fetch inside Storage begins with the byte at pc. -/
theorem State.fetchBytes_eq_cons (h : s.pc.toNat < s.cfg.memSize) :
    ∃ bs, s.fetchBytes = s.byte s.pc.toNat :: bs := by
  obtain ⟨rest, hrest⟩ := s.fetchBytes_eq_append [s.byte s.pc.toNat] (by simp) h
    fun k hk => by simp [Nat.lt_one_iff.mp hk]
  exact ⟨rest, hrest⟩

/-- No opcode byte: ADR (R72). -/
theorem step_of_pc_outside (hs : s.stat = .aok) (h : s.cfg.memSize ≤ s.pc.toNat) :
    step s = .next (s.stop .adr) := by
  have hnil : s.fetchBytes = [] := List.eq_nil_of_length_eq_zero (by rw [s.length_fetchBytes]; omega)
  exact step_of_decode_error (e := .truncated) hs (by rw [hnil]; rfl)

/-- No such class: INS (R74). -/
theorem step_of_no_class (hs : s.stat = .aok) (hpc : s.pc.toNat < s.cfg.memSize)
    (hc : InstrClass.ofIcode (highNibble (s.byte s.pc.toNat)) = none) : step s = .next (s.stop .ins) := by
  obtain ⟨bs, hbytes⟩ := State.fetchBytes_eq_cons hpc
  exact step_of_decode_error hs (hbytes ▸ decode_of_no_class hc)

section

variable (hs : s.stat = .aok) (hc : InstrClass.ofIcode (highNibble (s.byte s.pc.toNat)) = some c)
include hs hc

/-- A later byte missing: ADR (R77). -/
theorem step_of_cut (hpc : s.pc.toNat < s.cfg.memSize) (hcut : s.cfg.memSize < s.pc.toNat + c.length) :
    step s = .next (s.stop .adr) := by
  have hmax : c.length ≤ 10 := classLength_le_maxLength c
  obtain ⟨bs, hbytes⟩ := State.fetchBytes_eq_cons hpc
  have hlen := s.length_fetchBytes
  rw [hbytes] at hlen
  exact step_of_decode_error hs (hbytes ▸ decode_of_length_lt s.cfg hc (by omega))

variable (hin : s.pc.toNat + c.length ≤ s.cfg.memSize)
include hin

/-- With all bytes of its class in Storage, a legal instruction runs and another one stops with INS. -/
theorem step_of_class :
    (c.Legal s.cfg (lowNibble (s.byte s.pc.toNat)) → ∃ i, i.length = c.length ∧ step s = exec i s) ∧
    (¬ c.Legal s.cfg (lowNibble (s.byte s.pc.toNat)) → step s = .next (s.stop .ins)) := by
  have hmax : c.length ≤ 10 := classLength_le_maxLength c
  have hpos : 0 < c.length := by rw [c.length_eq]; omega
  obtain ⟨bs, hbytes⟩ := State.fetchBytes_eq_cons (s := s) (by omega)
  have hlen := s.length_fetchBytes
  rw [hbytes] at hlen
  obtain ⟨hok, hbad⟩ := decode_of_class (cfg := s.cfg) (bs := bs) hc (by omega)
  refine ⟨fun hlegal => ?_, fun hnot => ?_⟩
  · obtain ⟨i, rest, hd, hi⟩ := hok hlegal
    exact ⟨i, hi, step_of_decode_ok hs (hbytes ▸ hd)⟩
  · obtain ⟨e, hd, he⟩ := hbad hnot
    rw [step_of_decode_error hs (hbytes ▸ hd), he]

end

end

/-- Settles O7: whether the opcode byte is in Storage, which class it selects, whether the class's bytes
are in Storage and whether its function code is legal decide the step, in that order. -/
theorem fetchStopsInPriorityOrder : Obligations.FetchStopsInPriorityOrder := by
  intro s hs pc icode ifun len unused selectsNone
  refine ⟨step_of_pc_outside hs, ?_⟩
  cases hc : InstrClass.ofIcode (highNibble (s.byte pc)) with
  | none =>
    have hicode : 12 ≤ icode := twelve_le_of_ofIcode_eq_none hc
    have hneither : ¬ (unused ∨ selectsNone) := by
      simp only [unused, selectsNone, List.mem_cons, List.not_mem_nil, or_false]
      omega
    exact ⟨fun hpc _ => step_of_no_class hs hpc hc, fun _ _ h => absurd h (by omega),
      fun _ h => absurd h hneither, fun _ h => absurd h (by omega)⟩
  | some c =>
    have hicode : icode = c.icode.toNat := icode_eq_of_ofIcode hc
    have hifun : ifun = (lowNibble (s.byte pc)).toNat := (lowNibble_toNat _).symm
    have hlt : icode < 12 := hicode ▸ icode_lt_twelve c
    have hlen : len = c.length := by rw [length_eq_by_icode, ← hicode]
    have hunused : c.ifunOk s.cfg (lowNibble (s.byte pc)) = false ↔ unused := by
      rw [ifunOk_eq_false_iff, ← hicode, ← hifun]
    have hnone : ¬ c.Selects (lowNibble (s.byte pc)) ↔ selectsNone := by
      rw [not_selects_iff, ← hicode, ← hifun]
    have hillegal : ¬ c.Legal s.cfg (lowNibble (s.byte pc)) ↔ unused ∨ selectsNone := by
      rw [not_legal_iff, hunused, hnone]
    rw [hlen]
    refine ⟨fun _ h => absurd h (by omega), fun hpc hcut _ => step_of_cut hs hc hpc hcut, ?_, ?_⟩
    · exact fun hin h => (step_of_class hs hc hin).2 (hillegal.mpr h)
    · exact fun hin _ hu hn =>
        (step_of_class hs hc hin).1 (not_not.mp fun h => (hillegal.mp h).elim hu hn)

/-- Settles O6: bytes that decode are an encoding, and they are the front of the fetch, which decodes to
the same instruction whatever follows them. -/
theorem stepRunsTheDecodedInstruction : Obligations.StepRunsTheDecodedInstruction := by
  intro s bytes i hs hd hin hf
  obtain ⟨c, ifun, rA, rB, valC, hi, hifun, hbytes⟩ := exists_of_decode_ok hd
  rw [List.append_nil] at hbytes
  have hlen : bytes.length ≤ maxLength := by
    rw [hbytes, length_classBytes]
    exact classLength_le_maxLength c
  obtain ⟨rest, hfetch⟩ := s.fetchBytes_eq_append bytes hlen hin fun k hk => hf k hk (by omega)
  exact step_of_decode_ok hs (by rw [hfetch, hbytes]; exact decode_classBytes hi hifun rest)

end Machine

end Sys2Proof
end

section
/-! PROOFS. The word accesses (20_memory.md sections 1, 2 and 5), and how the two memory forms use them: what
a valid word access reads and writes, and that an invalid one does nothing. -/

namespace Sys2Proof.Machine

/-- The state after a valid store (R33). -/
def State.stored (s : State) (a v : Word) : State := { s with mem := s.mem.writeBytes a.toNat (leBytes v) }

section

variable (s : State) (a v : Word)

/-- The word a store wrote stands at its address (R33). -/
theorem holdsWord_stored : HoldsWord (s.stored a v) a v :=
  fun k hk => Memory.read_writeWord s.mem a.toNat k v hk

/-- A store changes no byte outside the eight at its address (R33). -/
theorem sameStorageOutside_stored : SameStorageOutside s (s.stored a v) a :=
  fun k hk => Memory.read_writeBytes_outside (leBytes v) s.mem a.toNat k hk

/-- The word a store wrote is what a load there reads. -/
theorem readWord_stored : (s.stored a v).mem.readWord a.toNat = v := Memory.readWord_writeWord s.mem a.toNat v

end

section

variable {s : State} {a : Word}

theorem loadThen_of_wordOk (h : WordOk s a) (go : Word → State) :
    loadThen s a go = .next (go (s.mem.readWord a.toNat)) :=
  ((loadThen_cases s a go).resolve_right fun hbad => hbad.1 h).2

theorem loadThen_of_not_wordOk (h : ¬ WordOk s a) (go : Word → State) :
    loadThen s a go = .next (s.stop .adr) :=
  ((loadThen_cases s a go).resolve_left fun hok => h hok.1).2

theorem storeThen_of_wordOk (h : WordOk s a) (v : Word) (go : State → State) :
    storeThen s a v go = .next (go (s.stored a v)) :=
  ((storeThen_cases s a v go).resolve_right fun hbad => hbad.1 h).2

theorem storeThen_of_not_wordOk (h : ¬ WordOk s a) (v : Word) (go : State → State) :
    storeThen s a v go = .next (s.stop .adr) :=
  ((storeThen_cases s a v go).resolve_left fun hok => h hok.1).2

/-- A word address whose unsigned value is 2^63 or more is outside Storage (20_memory.md R40). -/
theorem not_wordOk_of_ge (h : 2 ^ 63 ≤ a.toNat) : ¬ WordOk s a := by
  have hbad := wordInBounds_high s.cfg a h
  rwa [← Bool.not_eq_true, wordInBounds_iff] at hbad

end

/-- Settles O32: a valid word access reads and writes the eight bytes at its address, an invalid one
none. -/
theorem wordAccessContract : Obligations.WordAccessContract := by
  intro s a v
  refine ⟨?_, fun ha => ?_, fun ha => ⟨s.writeWord_bad a v ha, s.readWord_bad a ha⟩⟩
  · simp [State.readByte, byteInBounds, State.byte]
  · refine ⟨s.stored a v, _, s.writeWord_ok a v ha, ?_, holdsWord_stored s a v,
      sameStorageOutside_stored s a v, s.readWord_ok a ha, holdsWord_readWord s a⟩
    rw [(s.stored a v).readWord_ok a ha, readWord_stored]

/-- Settles O33: a negative address is 2^63 or more as an unsigned number, and so is %rsp - 8 for %rsp
below 8. -/
theorem negativeAddressesAreOutOfBounds : Obligations.NegativeAddressesAreOutOfBounds := by
  intro s
  refine ⟨fun a ha => not_wordOk_of_ge ?_, fun hsp ifun rA rB D => ?_⟩
  · have := BitVec.toInt_neg_iff.mp ha
    omega
  · have hpush : ¬ WordOk s s.pushAddr := by
      apply not_wordOk_of_ge
      rw [State.pushAddr]
      bv_omega
    exact ⟨storeThen_of_not_wordOk hpush _ _, storeThen_of_not_wordOk hpush _ _⟩

end Sys2Proof.Machine
end

section
/-! PROOFS. The instructions whose function code is unused: nop (41_halt_nop.md), irmovq (42_moves.md), the
store and the load (43_memory_access.md) and the stack instructions (46_stack.md). One lemma takes each of
them from its bytes (R78); the effect of the last two groups is that of a word access. -/

namespace Sys2Proof.Machine

/-- A class with an unused function code stops with INS where the code is not allowed (R78). -/
theorem decode_of_ifun_refused {cfg : Config} {c : InstrClass} {ifun : Nibble} {rA rB : Reg} {valC : Word}
    (hifun : c.ifunOk cfg ifun = false) (rest : List Byte) :
    ∃ e, decode cfg (classBytes c ifun rA rB valC ++ rest) = .error e ∧ stopOf e = .ins := by
  have hc : InstrClass.ofIcode (highNibble (opcodeByte c ifun)) = some c := by simp
  have hlen : c.length ≤ (classBytes c ifun rA rB valC ++ rest).length := by simp
  refine (decode_of_class (cfg := cfg) hc hlen).2 fun hlegal => ?_
  obtain ⟨hok, -⟩ := hlegal
  rw [lowNibble_opcodeByte, hifun] at hok
  cases hok

/-- The bytes of a class with an unused function code run what the fields assemble to, where the code is
allowed. -/
theorem runsAs_of_assemble (s : State) {c : InstrClass} {ifun : Nibble} {rA rB : Reg} {valC : Word}
    {i : Instr} (hchecks : c.checksUnusedIfun = true) (hi : assemble c ifun rA rB valC = .ok i) :
    RunsAs s (classBytes c ifun rA rB valC) (ifunAllowed s.cfg ifun) i := by
  have hok : c.ifunOk s.cfg ifun = ifunAllowed s.cfg ifun := by simp [InstrClass.ifunOk, hchecks]
  rw [← hok]
  exact runsAs_of_decode (c := c) (by simp) length_classBytes
    (fun h rest => decode_classBytes hi h rest) (fun h rest => decode_of_ifun_refused h rest)

/-- Settles O11: nop writes pc alone. -/
theorem nopOnlyAdvances : Obligations.NopOnlyAdvances := by
  intro s ifun
  exact ⟨runsAs_of_assemble s (c := .nop) (rA := .rnone) (rB := .rnone) (valC := 0) rfl rfl,
    _, rfl, rfl, rfl, ⟨rfl, rfl⟩, fun _ => rfl, fun _ _ => rfl⟩

/-- Settles O13: the ALU adds 0 to the constant. -/
theorem irmovqLoadsItsConstant : Obligations.IrmovqLoadsItsConstant := by
  intro s ifun rA rB V
  have hexec : exec (.irmovq ifun rA rB V) s = .next ((s.setReg rB V).setPc (s.pc + 10)) := by
    simp [exec, execIrmovq, State.valP]
  exact ⟨runsAs_of_assemble s (c := .irmovq) rfl rfl, _, hexec, rfl, rfl, ⟨rfl, rfl⟩, fun _ => rfl,
    fun r hr => State.setReg_reg_of_ne s rB r V (List.ne_of_not_mem_cons hr), State.setReg_reg_self s rB V⟩

/-- Settles O14: the effect of rmmovq is that of a store at its address, with the pc moved on. -/
theorem rmmovqStoresOrRaisesAdr : Obligations.RmmovqStoresOrRaisesAdr := by
  intro s ifun rA rB D i
  refine ⟨runsAs_of_assemble s (c := .rmmovq) rfl rfl, rfl, fun ha => ?_, fun ha => ?_⟩
  · exact ⟨_, storeThen_of_wordOk ha _ _, holdsWord_stored s _ _, sameStorageOutside_stored s _ _,
      rfl, rfl, ⟨rfl, rfl⟩, fun _ _ => rfl⟩
  · exact storeThen_of_not_wordOk ha _ _

/-- Settles O15: the load reads the word at its address, and after a store there the stored word. -/
theorem mrmovqLoadsOrRaisesAdr : Obligations.MrmovqLoadsOrRaisesAdr := by
  intro s ifun rA rB D i
  refine ⟨runsAs_of_assemble s (c := .mrmovq) rfl rfl, fun ha => ?_, fun ha => ?_, fun rC t ht ha hrA => ?_⟩
  · exact ⟨_, _, loadThen_of_wordOk ha _, holdsWord_readWord s _, State.setReg_reg_self s rA _,
      fun r hr => State.setReg_reg_of_ne s rA r _ (List.ne_of_not_mem_cons hr), rfl, rfl, ⟨rfl, rfl⟩,
      fun _ => rfl⟩
  · exact loadThen_of_not_wordOk ha _
  · cases (storeThen_of_wordOk ha _ _).symm.trans ht
    refine ⟨_, loadThen_of_wordOk (s := (s.stored _ _).setPc _) ha _, ?_⟩
    rw [State.setPc_reg, State.setReg_reg_self, if_neg hrA]
    exact readWord_stored s _ _

/-- The state after a valid push of a word, by pushq or call, with the pc it goes on at (R170, R172). -/
def State.pushed (s : State) (v pc : Word) : State :=
  ((s.stored s.pushAddr v).setReg .rsp s.pushAddr).setPc pc

section

variable {s : State} (ha : WordOk s s.pushAddr)
include ha

theorem exec_pushq_of_wordOk (f : Nibble) (rA rB : Reg) :
    exec (.pushq f rA rB) s = .next (s.pushed (s.reg rA) (s.pc + 2)) :=
  storeThen_of_wordOk ha _ _

theorem exec_call_of_wordOk (f : Nibble) (D : Word) :
    exec (.call f D) s = .next (s.pushed (s.pc + 9) D) :=
  storeThen_of_wordOk ha _ _

end

/-- A push stores its word at %rsp - 8, moves %rsp there and goes on at its pc, whatever it pushes. -/
theorem push_effect (s : State) (v pc : Word) :
    HoldsWord (s.pushed v pc) s.pushAddr v ∧ SameStorageOutside s (s.pushed v pc) s.pushAddr ∧
      (s.pushed v pc).reg .rsp = s.reg .rsp - 8 ∧ SameRegsBut s (s.pushed v pc) [.rsp] ∧
      (s.pushed v pc).pc = pc ∧ (s.pushed v pc).cc = s.cc ∧ SameStatus s (s.pushed v pc) :=
  ⟨holdsWord_stored s _ _, sameStorageOutside_stored s _ _, rfl,
    fun r hr => State.setReg_reg_of_ne _ .rsp r _ (List.ne_of_not_mem_cons hr), rfl, rfl, rfl, rfl⟩

/-- Settles O18: pushq pushes the register as it was before %rsp moves. -/
theorem pushqStoresBelowTheStackPointer : Obligations.PushqStoresBelowTheStackPointer := by
  intro s ifun rA rB i
  exact ⟨runsAs_of_assemble s (c := .pushq) (valC := 0) rfl rfl, rfl,
    fun ha => ⟨_, exec_pushq_of_wordOk ha ifun rA rB, push_effect s _ _⟩,
    fun ha => storeThen_of_not_wordOk ha _ _⟩

/-- Settles O20: call pushes the address after its nine bytes and goes on at its target. -/
theorem callPushesTheReturnAddress : Obligations.CallPushesTheReturnAddress := by
  intro s ifun D i
  exact ⟨runsAs_of_assemble s (c := .call) (rA := .rnone) (rB := .rnone) rfl rfl, rfl,
    fun ha => ⟨_, exec_call_of_wordOk ha ifun D, push_effect s _ _⟩,
    fun ha => storeThen_of_not_wordOk ha _ _⟩

/-- Settles O19: the second write is to rA, so it wins where rA is %rsp. -/
theorem popqLoadsFromTheStackPointer : Obligations.PopqLoadsFromTheStackPointer := by
  intro s ifun rA rB i
  refine ⟨runsAs_of_assemble s (c := .popq) (valC := 0) rfl rfl, fun ha => ?_,
    fun ha => loadThen_of_not_wordOk ha _⟩
  refine ⟨_, _, loadThen_of_wordOk ha _, holdsWord_readWord s _, State.setReg_reg_self _ rA _,
    fun hrA => State.setReg_reg_of_ne _ rA .rsp _ hrA.symm, fun r hr => ?_, rfl, rfl, ⟨rfl, rfl⟩,
    fun _ => rfl⟩
  obtain ⟨hrsp, hrA⟩ : r ≠ .rsp ∧ r ≠ rA := by simpa using hr
  exact (State.setReg_reg_of_ne _ rA r _ hrA).trans (State.setReg_reg_of_ne s .rsp r _ hrsp)

/-- Settles O21: the loaded word is the new pc. -/
theorem retPopsTheReturnAddress : Obligations.RetPopsTheReturnAddress := by
  intro s ifun i
  refine ⟨runsAs_of_assemble s (c := .ret) (rA := .rnone) (rB := .rnone) (valC := 0) rfl rfl, fun ha => ?_,
    fun ha => loadThen_of_not_wordOk ha _⟩
  exact ⟨_, loadThen_of_wordOk ha _, holdsWord_readWord s _, rfl,
    fun r hr => State.setReg_reg_of_ne s .rsp r _ (List.ne_of_not_mem_cons hr), rfl, ⟨rfl, rfl⟩, fun _ => rfl⟩

end Sys2Proof.Machine
end

section
/-! PROOFS. Two instructions in a row: a push and a pop, a call and a return (46_stack.md), and a store and
the fetch of what it stored (20_memory.md section 6). -/

namespace Sys2Proof.Machine

section

variable (s : State) (v pc : Word)

theorem pushed_popAddr : (s.pushed v pc).popAddr = s.pushAddr := rfl

/-- A pop after a push restores %rsp. -/
theorem pushed_popSp : (s.pushed v pc).popSp = s.reg .rsp := BitVec.sub_add_cancel (s.reg .rsp) 8

/-- A pop after a push reads the pushed word. -/
theorem pushed_readWord : (s.pushed v pc).mem.readWord s.pushAddr.toNat = v := readWord_stored s s.pushAddr v

theorem pushed_reg_of_ne {r : Reg} (h : r ≠ .rsp) : (s.pushed v pc).reg r = s.reg r :=
  State.setReg_reg_of_ne _ .rsp r _ h

variable {s}

/-- A pop's load after a push reads the pushed word. -/
theorem loadThen_pushed (ha : WordOk s s.pushAddr) (go : Word → State) :
    loadThen (s.pushed v pc) (s.pushed v pc).popAddr go = .next (go v) := by
  rw [pushed_popAddr, loadThen_of_wordOk (s := s.pushed v pc) ha, pushed_readWord]

end

/-- Settles O34: the pop reads the pushed word and moves %rsp back before it writes its destination. -/
theorem pushThenPopRoundTrip : Obligations.PushThenPopRoundTrip := by
  intro s f g rA rA' rB rB' ha
  refine ⟨_, _, exec_pushq_of_wordOk ha f rA rA', loadThen_pushed _ _ ha _, fun hrB => ?_, fun hrB => ?_,
    fun r hrB hrsp => ?_⟩
  · rw [State.setPc_reg, State.setReg_reg_of_ne _ _ _ _ hrB.symm, pushed_popSp]
    exact State.setReg_reg_self _ .rsp _
  · rw [State.setPc_reg, State.setReg_reg_self, if_neg hrB]
  · rw [State.setPc_reg, State.setReg_reg_of_ne _ _ _ _ hrB, State.setReg_reg_of_ne _ _ _ _ hrsp,
      pushed_reg_of_ne s _ _ hrsp]

/-- Settles O35: the return reads the return address the call pushed, and moves %rsp back. -/
theorem callThenRetRoundTrip : Obligations.CallThenRetRoundTrip := by
  intro s f g D ha
  refine ⟨_, _, exec_call_of_wordOk ha f D, rfl, loadThen_pushed _ _ ha _, rfl, rfl, fun r _ => ?_⟩
  rw [State.setPc_reg, pushed_popSp]
  by_cases hr : r = .rsp
  · subst hr
    exact State.setReg_reg_self _ .rsp _
  · rw [State.setReg_reg_of_ne _ _ _ _ hr, pushed_reg_of_ne s _ _ hr]

/-- Settles O36: the stored bytes stand at the next pc inside Storage, and they are an encoding. -/
theorem fetchSeesEarlierStore : Obligations.FetchSeesEarlierStore := by
  intro s t rA rB D i hs hwf hlen haddr ha hbytes ht
  cases (storeThen_of_wordOk ha _ _).symm.trans ht
  have hdecode : decode s.cfg (encode i) = .ok (i, []) := by
    simpa using decodeOfEncodeIsIdentity s.cfg i [] hwf
  refine stepRunsTheDecodedInstruction _ (encode i) i hs hdecode ?_ fun k hk _ => ?_
  · have := s.cfg.memSize_ge
    show (s.pc + 10).toNat + (encode i).length ≤ s.cfg.memSize
    rw [length_encode, ← haddr]
    omega
  · have hk8 : k < 8 := by rw [length_encode] at hk; omega
    show (s.stored (s.baseDisp rB D) (s.reg rA)).byte ((s.pc + 10).toNat + k) = _
    rw [← haddr, holdsWord_stored s (s.baseDisp rB D) (s.reg rA) k hk8, hbytes k hk]

end Sys2Proof.Machine
end

section
/-! PROOFS. The integer laws of the flags (44_alu.md): OF is Lean's own signed overflow, whose definition is
the range of the exact result, and after a subtraction SF and OF together are the signed order. -/

namespace Sys2Proof.Machine

section

variable (a b : Word)

/-- OF of an addition is signed overflow of second operand plus first. -/
theorem overflow_add_eq_saddOverflow : overflow .add a b (b + a) = b.saddOverflow a := by
  rw [BitVec.saddOverflow_eq, overflow]
  cases a.msb <;> cases b.msb <;> simp

/-- OF of a subtraction is signed overflow of second operand minus first. -/
theorem overflow_sub_eq_ssubOverflow : overflow .sub a b (b - a) = b.ssubOverflow a := by
  rw [BitVec.ssubOverflow_eq, overflow]
  cases a.msb <;> cases b.msb <;> simp

/-- OF of an addition says whether the exact sum is out of range. -/
theorem overflow_add_iff : overflow .add a b (b + a) = true ↔
    ¬ (-(2 ^ 63) ≤ a.toInt + b.toInt ∧ a.toInt + b.toInt < 2 ^ 63) := by
  rw [overflow_add_eq_saddOverflow]
  simp only [BitVec.saddOverflow, Bool.or_eq_true, decide_eq_true_eq]
  omega

/-- OF of a subtraction says whether the exact difference is out of range. -/
theorem overflow_sub_iff : overflow .sub a b (b - a) = true ↔
    ¬ (-(2 ^ 63) ≤ b.toInt - a.toInt ∧ b.toInt - a.toInt < 2 ^ 63) := by
  rw [overflow_sub_eq_ssubOverflow]
  simp only [BitVec.ssubOverflow, Bool.or_eq_true, decide_eq_true_eq]
  omega

/-- The sum modulo 2^64 is the exact sum modulo 2^64. -/
theorem add_eq_ofInt : b + a = BitVec.ofInt 64 (a.toInt + b.toInt) := by
  rw [BitVec.ofInt_add, BitVec.ofInt_toInt, BitVec.ofInt_toInt, BitVec.add_comm]

/-- The difference modulo 2^64 is the exact difference modulo 2^64. -/
theorem sub_eq_ofInt : b - a = BitVec.ofInt 64 (b.toInt - a.toInt) :=
  BitVec.eq_of_toInt_eq (by rw [BitVec.toInt_sub, BitVec.toInt_ofInt])

/-! ### The conditions after a subtraction -/

/-- SF is the sign of the exact difference, turned over where that is out of range. -/
theorem holds_l_sub : Cond.l.holds (aluFlags .sub a b) = decide (b.toInt < a.toInt) := by
  show ((b - a).msb != overflow .sub a b (b - a)) = _
  rw [BitVec.msb_eq_toInt]
  cases hof : overflow .sub a b (b - a) with
  | true =>
    have hout := (overflow_sub_iff a b).mp hof
    have hwrap : (b - a).toInt < 0 ↔ ¬ b.toInt < a.toInt := by
      have := a.toInt_lt; have := a.le_toInt; have := b.toInt_lt; have := b.le_toInt
      rw [BitVec.toInt_sub, Int.bmod_def]
      split <;> omega
    rw [decide_eq_decide.mpr hwrap, decide_not, Bool.bne_true, Bool.not_not]
  | false =>
    rw [overflow_sub_eq_ssubOverflow, ← Bool.not_eq_true] at hof
    have hexact : (b - a).toInt = b.toInt - a.toInt := BitVec.toInt_sub_of_not_ssubOverflow hof
    rw [Bool.bne_false, decide_eq_decide]
    omega

theorem holds_e_sub : Cond.e.holds (aluFlags .sub a b) = decide (b.toInt = a.toInt) := by
  show (b - a == 0) = _
  rw [beq_eq_decide, decide_eq_decide]
  exact sub_eq_zero.trans BitVec.toInt_inj.symm

theorem holds_le_sub : Cond.le.holds (aluFlags .sub a b) = decide (b.toInt ≤ a.toInt) := by
  rw [show Cond.le.holds _ = (Cond.l.holds _ || Cond.e.holds _) from rfl, holds_l_sub, holds_e_sub,
    ← Bool.decide_or, decide_eq_decide]
  omega

theorem holds_ne_sub : Cond.ne.holds (aluFlags .sub a b) = decide (b.toInt ≠ a.toInt) := by
  rw [show Cond.ne.holds _ = !Cond.e.holds _ from rfl, holds_e_sub, decide_not]

theorem holds_ge_sub : Cond.ge.holds (aluFlags .sub a b) = decide (b.toInt ≥ a.toInt) := by
  rw [show Cond.ge.holds _ = !Cond.l.holds _ from rfl, holds_l_sub, ← decide_not, decide_eq_decide]
  omega

theorem holds_g_sub : Cond.g.holds (aluFlags .sub a b) = decide (b.toInt > a.toInt) := by
  rw [show Cond.g.holds _ = (!Cond.l.holds _ && !Cond.e.holds _) from rfl, holds_l_sub, holds_e_sub,
    ← decide_not, ← decide_not, ← Bool.decide_and, decide_eq_decide]
  omega

end

/-- Settles O22: OF is signed overflow, and the result is the exact one modulo 2^64. -/
theorem overflowFlagIsExactRange : Obligations.OverflowFlagIsExactRange := by
  intro s t rA rB A B
  refine ⟨fun h => ?_, fun h => ?_⟩ <;> cases (arithLogic_eq _ rA rB s).symm.trans h
  · refine ⟨overflow_add_iff _ _, fun hrB => ?_⟩
    rw [State.setPc_reg, State.setReg_reg_self, if_neg hrB]
    exact add_eq_ofInt _ _
  · refine ⟨overflow_sub_iff _ _, fun hrB => ?_⟩
    rw [State.setPc_reg, State.setReg_reg_self, if_neg hrB]
    exact sub_eq_ofInt _ _

/-- Settles O23: the flags a jump or move finds are those of the subtraction. -/
theorem conditionsAfterSubqCompareSigned : Obligations.ConditionsAfterSubqCompareSigned := by
  intro s t rA rB rC rD D h A B
  have hcc : t.cc = aluFlags .sub (s.reg rA) (s.reg rB) := by
    cases (arithLogic_eq .sub rA rB s).symm.trans h
    rfl
  have jumps {c : Cond} {p : Bool} {i : Instr} (hp : c.holds (aluFlags .sub (s.reg rA) (s.reg rB)) = p)
      (hi : exec i t = jumpIf c D t) : JumpsIf p i D t := by
    rw [← hp, ← hcc]
    exact jumpsIf_of_jumpIf t hi
  have moves {c : Cond} {p : Bool} {i : Instr} (hp : c.holds (aluFlags .sub (s.reg rA) (s.reg rB)) = p)
      (hi : exec i t = registerMove c rC rD t) : MovesIf p i rC rD t := by
    rw [← hp, ← hcc]
    exact movesIf_of_registerMove t hi
  exact ⟨⟨jumps (holds_le_sub _ _) rfl, jumps (holds_l_sub _ _) rfl, jumps (holds_e_sub _ _) rfl,
      jumps (holds_ne_sub _ _) rfl, jumps (holds_ge_sub _ _) rfl, jumps (holds_g_sub _ _) rfl⟩,
    moves (holds_le_sub _ _) rfl, moves (holds_l_sub _ _) rfl, moves (holds_e_sub _ _) rfl,
    moves (holds_ne_sub _ _) rfl, moves (holds_ge_sub _ _) rfl, moves (holds_g_sub _ _) rfl⟩

end Sys2Proof.Machine
end

section
/-! PROOFS. The host's moves (70_reset_and_hazards.md sections 1 and 2): reset, and the load of a listing,
whose line writes the bytes that lie in Storage up to its end or its first bad token. -/

namespace Sys2Proof.Machine

/-- Settles O29: an empty list is canonical, and lists no address. -/
theorem resetMeetsStorageInvariant : Obligations.ResetMeetsStorageInvariant := by
  intro cfg
  exact ⟨⟨⟨List.Pairwise.nil, nofun⟩, nofun⟩, rfl⟩

/-- Settles O30: unwritten Storage reads 0, the opcode byte of halt. -/
theorem resetFromAnyState : Obligations.ResetFromAnyState := by
  intro s
  refine ⟨State.resetOf s.cfg, rfl, fun _ => State.resetOf_reg _ s.cfg, rfl, fun _ => rfl, rfl, rfl, rfl,
    fun hpc => ?_⟩
  obtain ⟨hruns, hexec, -⟩ := haltStopsAtItsOwnAddress (State.resetOf s.cfg) 0
  have hzero : FetchesBytes (State.resetOf s.cfg) [(0x0#4 ++ 0#4 : Byte)] := by
    intro k hk _
    rw [List.length_singleton, Nat.lt_one_iff] at hk
    subst hk
    rfl
  exact (hruns rfl hzero).trans ((if_pos hpc).trans hexec)

section

variable {s : State} {a : Nat}

theorem writeByte_of_lt (h : a < s.cfg.memSize) (b : Byte) : s.writeByte a b = some (s.setByte a b) := by
  rw [State.writeByte, if_pos ((byteInBounds_iff s.cfg a).mpr h)]

theorem writeByte_of_ge (h : s.cfg.memSize ≤ a) (b : Byte) : s.writeByte a b = none := by
  rw [State.writeByte, if_neg (by rw [byteInBounds_iff]; omega)]

/-! ### What a load keeps -/

/-- What every write of a byte inside Storage keeps is kept by the writes of a line. -/
theorem loadTokens_keeps {P : State → Prop}
    (hP : ∀ (s : State) (a : Nat) (b : Byte), a < s.cfg.memSize → P s → P (s.setByte a b))
    (tokens : List (Option Byte)) (s : State) (a : Nat) (h : P s) : P (loadTokens s a tokens).1 := by
  induction tokens generalizing s a with
  | nil => exact h
  | cons token tokens ih =>
    cases token with
    | none => exact h
    | some b =>
      by_cases ha : a < s.cfg.memSize
      · rw [loadTokens, writeByte_of_lt ha]
        exact ih _ _ (hP s a b ha h)
      · rw [loadTokens, writeByte_of_ge (by omega)]
        exact h

/-- What every write of a byte inside Storage keeps is kept by the load of a listing. -/
theorem loadListing_keeps {P : State → Prop}
    (hP : ∀ (s : State) (a : Nat) (b : Byte), a < s.cfg.memSize → P s → P (s.setByte a b))
    (lines : List ListingLine) (s : State) (h : P s) : P (loadListing s lines).1 := by
  induction lines generalizing s with
  | nil => exact h
  | cons line lines ih =>
    have hline : P (loadLine s line).1 := by
      obtain ⟨addr, tokens⟩ := line
      cases addr with
      | none => exact h
      | some a => exact loadTokens_keeps hP tokens s a h
    rw [loadListing]
    rcases hload : loadLine s line with ⟨t, ok⟩
    rw [hload] at hline
    cases ok with
    | true => exact ih t hline
    | false => exact hline

/-- A byte written inside Storage keeps Storage canonical and within MEM_SIZE. -/
theorem setByte_inv (ha : a < s.cfg.memSize) (b : Byte) (h : s.inv) : (s.setByte a b).inv := by
  obtain ⟨hwf, hin⟩ := h
  refine ⟨Memory.write_wf s.mem a b hwf, fun c hc => ?_⟩
  rcases Memory.mem_write s.mem a b c hc with hold | ⟨rfl, -⟩
  exacts [hin c hold, ha]

end

/-- Settles O28: reset and step by their own theorems, a load byte by byte, and a register is no part of
the invariant. -/
theorem hostMovesKeepStorageInvariant : Obligations.HostMovesKeepStorageInvariant := by
  intro s t m hinv h
  cases m with
  | reset => cases h; exact ⟨(resetMeetsStorageInvariant s.cfg).1, rfl⟩
  | load lines =>
    cases h
    exact loadListing_keeps (P := fun t => t.inv ∧ t.cfg = s.cfg)
      (fun u a b ha ⟨hu, hcfg⟩ => ⟨setByte_inv ha b hu, hcfg⟩) lines s ⟨hinv, rfl⟩
  | setRegister r v => cases h; exact ⟨hinv, rfl⟩
  | step => exact stepKeepsStorageInvariant s t hinv h

/-! ### What a line writes -/

/-- The tokens of a line with these valid bytes write those of them that lie in Storage, and succeed if
all do. -/
theorem loadTokens_eq (good : List Byte) (rest : List (Option Byte))
    (hrest : rest = [] ∨ ∃ tail, rest = none :: tail) (s : State) (a : Nat) :
    loadTokens s a (good.map some ++ rest) =
      ({ s with mem := s.mem.writeBytes a (good.take (s.cfg.memSize - a)) },
        decide (good = [] ∨ a + good.length ≤ s.cfg.memSize)) := by
  induction good generalizing s a with
  | nil => rcases hrest with rfl | ⟨tail, rfl⟩ <;> simp [loadTokens, Memory.writeBytes]
  | cons b good ih =>
    by_cases ha : a < s.cfg.memSize
    · have hroom : s.cfg.memSize - a = (s.cfg.memSize - (a + 1)) + 1 := by omega
      have hfits : (good = [] ∨ a + 1 + good.length ≤ s.cfg.memSize) ↔
          a + (good.length + 1) ≤ s.cfg.memSize := by
        cases good with
        | nil => simpa using ha
        | cons => simp only [reduceCtorEq, false_or]; omega
      simp [loadTokens, writeByte_of_lt ha, ih, hroom, Memory.writeBytes, hfits]
    · have hfull : s.cfg.memSize - a = 0 := by omega
      have hlong : ¬ a + (good.length + 1) ≤ s.cfg.memSize := by omega
      simp [loadTokens, writeByte_of_ge (Nat.not_lt.mp ha), hfull, Memory.writeBytes, hlong]

/-- Settles O37: the bytes that lie in Storage are the first MEM_SIZE - a. -/
theorem loaderWritesUpToTheFirstFailure : Obligations.LoaderWritesUpToTheFirstFailure := by
  intro s a good rest hrest result t
  have hload : result = _ := loadTokens_eq good rest hrest s a
  have hmem : t.mem = s.mem.writeBytes a (good.take (s.cfg.memSize - a)) := congrArg (State.mem ·.1) hload
  have hframe : t = { s with mem := t.mem } := by
    rw [hmem]
    exact congrArg Prod.fst hload
  refine ⟨?_, fun k hk hin => ?_, fun x hx => ?_, ?_⟩
  · rw [hload, decide_eq_true_iff]
  · have hk' : k < (good.take (s.cfg.memSize - a)).length := by rw [List.length_take]; omega
    rw [State.byte, hmem, Memory.read_writeBytes _ _ _ _ hk', List.getElem_take]
  · rw [State.byte, hmem]
    refine Memory.read_writeBytes_outside _ _ _ _ ?_
    rw [List.length_take]
    omega
  · rw [hframe]
    exact ⟨fun _ _ => rfl, rfl, rfl, rfl, rfl⟩

end Sys2Proof.Machine
end

section
/-! PROOFS. The driver's run (70_reset_and_hazards.md section 6), one step at a time against the run of the
core. -/

namespace Sys2Proof.Machine

/-- The first k states of the run from s are running. -/
def RunningFor (k : Nat) (s : State) : Prop :=
  ∀ j, j < k → ∃ u : State, Host.Core.run Sys2Proof.core j s = .next u ∧ u.stat = .aok

section

variable {s t : State} {k : Nat}

/-- What the driver does in one state: it ends there, or it asks for a step and goes on, cap allowing. -/
theorem drive_cases (s : State) :
    (s.stat ≠ .aok ∧ ∀ n, drive n s = .ended s) ∨
    (s.stat = .aok ∧ drive 0 s = .outOfFuel ∧
      ∃ u, step s = .next u ∧ ∀ n, drive (n + 1) s = drive n u) := by
  by_cases hs : s.stat = .aok
  · obtain ⟨u, hu⟩ := (everyStepHasANextState s 0).1
    exact .inr ⟨hs, if_pos hs, u, hu, fun n => by rw [drive, if_pos hs, hu]⟩
  · exact .inl ⟨hs, fun n => by cases n <;> exact if_neg hs⟩

theorem stat_of_runningFor (h : RunningFor k s) (hk : 0 < k) : s.stat = .aok := by
  obtain ⟨u, hu, hrun⟩ := h 0 hk
  cases (run_zero s).symm.trans hu
  exact hrun

/-- A running machine runs for one step more than the state its step leaves. -/
theorem runningFor_succ_iff (hs : s.stat = .aok) (h : step s = .next t) :
    RunningFor (k + 1) s ↔ RunningFor k t := by
  constructor
  · intro hrun j hj
    rw [← run_succ j s t h]
    exact hrun (j + 1) (by omega)
  · intro hrun j hj
    cases j with
    | zero => exact ⟨s, run_zero s, hs⟩
    | succ j =>
      rw [run_succ j s t h]
      exact hrun j (by omega)

end

/-- A state that is not running is the end of its own run. -/
theorem run_first_stop_of_stopped {s t : State} {k : Nat} (hs : s.stat ≠ .aok)
    (hrun : Host.Core.run Sys2Proof.core k s = .next t) (hrunning : RunningFor k s) : t = s := by
  cases k with
  | zero => cases (run_zero s).symm.trans hrun; rfl
  | succ k => exact absurd (stat_of_runningFor hrunning k.succ_pos) hs

/-- The driver ends in the first state that is not running, if its cap lets it get there. -/
theorem drive_eq_ended_iff (n : Nat) (s t : State) :
    drive n s = .ended t ↔ t.stat ≠ .aok ∧
      ∃ k, k ≤ n ∧ Host.Core.run Sys2Proof.core k s = .next t ∧ RunningFor k s := by
  rcases drive_cases s with ⟨hs, hends⟩ | ⟨hs, hcap, u, hu, hsteps⟩
  · rw [hends]
    constructor
    · intro h
      cases h
      exact ⟨hs, 0, n.zero_le, run_zero s, nofun⟩
    · rintro ⟨-, k, -, hrun, hrunning⟩
      rw [run_first_stop_of_stopped hs hrun hrunning]
  · have not_zero (ht : t.stat ≠ .aok) : Host.Core.run Sys2Proof.core 0 s ≠ .next t := by
      intro hrun
      cases (run_zero s).symm.trans hrun
      exact ht hs
    cases n with
    | zero =>
      rw [hcap]
      refine ⟨nofun, ?_⟩
      rintro ⟨ht, k, hk, hrun, -⟩
      cases Nat.le_zero.mp hk
      exact absurd hrun (not_zero ht)
    | succ n =>
      rw [hsteps, drive_eq_ended_iff n u t]
      refine and_congr_right fun ht => ⟨?_, ?_⟩
      · rintro ⟨k, hk, hrun, hrunning⟩
        exact ⟨k + 1, Nat.succ_le_succ hk, (run_succ k s u hu).trans hrun,
          (runningFor_succ_iff hs hu).mpr hrunning⟩
      · rintro ⟨k, hk, hrun, hrunning⟩
        cases k with
        | zero => exact absurd hrun (not_zero ht)
        | succ k =>
          exact ⟨k, Nat.le_of_succ_le_succ hk, (run_succ k s u hu).symm.trans hrun,
            (runningFor_succ_iff hs hu).mp hrunning⟩

/-- The driver runs out exactly if its cap leaves the machine running. -/
theorem drive_eq_outOfFuel_iff (n : Nat) (s : State) :
    drive n s = .outOfFuel ↔
      ∃ u : State, Host.Core.run Sys2Proof.core n s = .next u ∧ u.stat = .aok := by
  rcases drive_cases s with ⟨hs, hends⟩ | ⟨hs, hcap, u, hu, hsteps⟩
  · rw [hends]
    refine ⟨nofun, ?_⟩
    rintro ⟨u, hu, hrun⟩
    cases (run_of_step_self (step_of_stopped s hs) n).symm.trans hu
    exact absurd hrun hs
  · cases n with
    | zero => exact ⟨fun _ => ⟨s, run_zero s, hs⟩, fun _ => hcap⟩
    | succ n =>
      rw [hsteps, run_succ n s u hu]
      exact drive_eq_outOfFuel_iff n u

/-- The driver is given a loaded machine: only the load itself can fail (R202). -/
theorem drive_ne_loadFailed (n : Nat) (s : State) : drive n s ≠ .loadFailed := by
  rcases drive_cases s with ⟨-, hends⟩ | ⟨-, hcap, u, -, hsteps⟩
  · rw [hends]
    nofun
  · cases n with
    | zero =>
      rw [hcap]
      nofun
    | succ n =>
      rw [hsteps]
      exact drive_ne_loadFailed n u

/-- Settles O38: the three ends of the driver, each characterised by the run of the core. -/
theorem driverEndsAtTheFirstStop : Obligations.DriverEndsAtTheFirstStop := by
  intro n s t
  exact ⟨drive_eq_ended_iff n s t, drive_eq_outOfFuel_iff n s, drive_ne_loadFailed n s⟩

end Sys2Proof.Machine
end

section
/-! PROOFS. The report (70_reset_and_hazards.md section 5): its words are those that hold a listed byte, and
in a canonical Storage the listed bytes are the ones that are not 0. -/

namespace Sys2Proof.Machine

/-- A word that is not 0 has a byte that is not 0. -/
theorem exists_wordByte_ne_zero {w : Word} (h : w ≠ 0) : ∃ k, k < 8 ∧ wordByte w k ≠ 0 := by
  by_contra hall
  push Not at hall
  apply h
  rw [← leWord_wordBytes w, hall 0 (by omega), hall 1 (by omega), hall 2 (by omega), hall 3 (by omega),
    hall 4 (by omega), hall 5 (by omega), hall 6 (by omega), hall 7 (by omega)]
  rfl

section

variable {cfg : Config} {whole : Memory} {a : Nat} {w : Word}

/-- A reported word lies in Storage at the aligned address below some listed byte. -/
theorem of_mem_sparseWords (m : Memory) (last : Option Nat) (h : (a, w) ∈ sparseWords cfg whole m last) :
    w = whole.readWord a ∧ a ≤ cfg.memSize - 8 ∧ ∃ c ∈ m, c.1 - c.1 % 8 = a := by
  induction m generalizing last with
  | nil => cases h
  | cons c m ih =>
    have later (last : Option Nat) (h : (a, w) ∈ sparseWords cfg whole m last) :
        w = whole.readWord a ∧ a ≤ cfg.memSize - 8 ∧ ∃ c' ∈ c :: m, c'.1 - c'.1 % 8 = a := by
      obtain ⟨hw, ha, c', hc', heq⟩ := ih last h
      exact ⟨hw, ha, c', List.mem_cons_of_mem c hc', heq⟩
    obtain ⟨x, b⟩ := c
    simp only [sparseWords] at h
    split at h
    · exact later _ h
    · split at h
      case isTrue hin =>
        rcases List.mem_cons.mp h with hhead | htail
        · cases hhead
          exact ⟨rfl, hin, _, List.mem_cons_self, rfl⟩
        · exact later _ htail
      case isFalse => exact later _ h

/-- The word at the aligned address below a listed byte is reported if it lies in Storage, unless it was
reported just before. -/
theorem mem_sparseWords (m : Memory) (last : Option Nat) (hlast : last ≠ some a)
    (ha : a ≤ cfg.memSize - 8) (hc : ∃ c ∈ m, c.1 - c.1 % 8 = a) :
    (a, whole.readWord a) ∈ sparseWords cfg whole m last := by
  induction m generalizing last with
  | nil => obtain ⟨c, hmem, -⟩ := hc; cases hmem
  | cons c m ih =>
    obtain ⟨x, b⟩ := c
    by_cases hx : x - x % 8 = a
    · subst hx
      simp [sparseWords, hlast, ha]
    · have htail : ∃ c ∈ m, c.1 - c.1 % 8 = a := by
        obtain ⟨c, hmem, heq⟩ := hc
        rcases List.mem_cons.mp hmem with rfl | hmem
        exacts [absurd heq hx, ⟨c, hmem, heq⟩]
      have hskip := ih (some (x - x % 8)) (by simpa using hx) htail
      simp only [sparseWords]
      split
      · exact ih last hlast htail
      · split
        exacts [List.mem_cons_of_mem _ hskip, hskip]

end

/-- A listed byte of a canonical memory, and no other, reads other than 0. -/
theorem read_ne_zero_iff {m : Memory} (hm : m.wf) (a : Nat) : m.read a ≠ 0 ↔ ∃ c ∈ m, c.1 = a := by
  constructor
  · intro hne
    by_contra hnone
    exact hne (m.read_of_not_mem a fun b hb => hnone ⟨(a, b), hb, rfl⟩)
  · rintro ⟨⟨x, b⟩, hc, rfl⟩
    rw [m.read_of_mem x b hm hc]
    exact hm.2 _ hc

/-- An aligned word of a canonical memory is not 0 exactly if one of its bytes is listed. -/
theorem readWord_ne_zero_iff {m : Memory} (hm : m.wf) {a : Nat} (ha : a % 8 = 0) :
    m.readWord a ≠ 0 ↔ ∃ c ∈ m, c.1 - c.1 % 8 = a := by
  constructor
  · intro hne
    obtain ⟨k, hk, hbyte⟩ := exists_wordByte_ne_zero hne
    rw [m.wordByte_readWord a k hk, read_ne_zero_iff hm] at hbyte
    obtain ⟨c, hc, heq⟩ := hbyte
    exact ⟨c, hc, by omega⟩
  · rintro ⟨c, hc, heq⟩ hzero
    have hbyte := m.wordByte_readWord a (c.1 % 8) (by omega)
    rw [hzero, show a + c.1 % 8 = c.1 by omega] at hbyte
    refine (read_ne_zero_iff hm c.1).mpr ⟨c, hc, rfl⟩ ?_
    rw [← hbyte]
    simp [wordByte]

/-- Settles O39: an aligned word is reported exactly if one of its bytes is listed, so exactly if it is
not 0. -/
theorem reportShowsRegistersFlagsAndAlignedWords :
    Obligations.ReportShowsRegistersFlagsAndAlignedWords := by
  intro s hinv
  obtain ⟨hwf, -⟩ := hinv
  refine ⟨rfl, rfl, rfl, rfl, fun a w => ⟨fun h => ?_, ?_⟩⟩
  · obtain ⟨rfl, ha, hlisted⟩ := of_mem_sparseWords s.mem none h
    have haligned : a % 8 = 0 := by
      obtain ⟨c, -, heq⟩ := hlisted
      omega
    exact ⟨haligned, ha, (readWord_ne_zero_iff hwf haligned).mpr hlisted,
      fun k hk => (s.mem.wordByte_readWord a k hk).symm⟩
  · rintro ⟨haligned, ha, hne, hbytes⟩
    have hw : s.mem.readWord a = w := Memory.readWord_eq s.mem a w hbytes
    rw [← hw] at hne ⊢
    exact mem_sparseWords s.mem none nofun ha ((readWord_ne_zero_iff hwf haligned).mp hne)

end Sys2Proof.Machine
end
